-- ==== Sys2Proof/Config.lean ====
section
/-! DEFINITION. What an implementation fixes (spec/00_scope.md R6) and the free value of the model.

`LATENCY` and `READY_POLICY`, the two open parameters of R6, stand in the input edges of State (assumption log 5). -/

namespace Sys2Proof.Config

/-- `SEED_WIDTH` (R6). -/
def seedWidth : Nat := 32

/-- `LANE_WIDTH` (R6). -/
def laneWidth : Nat := 64

/-- `BLOCK_BYTES` (R6). -/
def blockBytes : Nat := 16

/-- `TAIL_MAX` (R6): the most bytes a TAIL carries. -/
def tailMax : Nat := 15

/-- `DIGEST_WIDTH` (R6). -/
def digestWidth : Nat := 128

/-- `RESULT_WIDTH` (R6). -/
def resultWidth : Nat := 64

/-- `LEN_WIDTH` (R6). -/
def lenWidth : Nat := 64

/-- `CMD_WIDTH` (R6). -/
def cmdWidth : Nat := 136

/-- FREE VALUE. What `res_data` shows while `res_valid = 0` (spec/93_implementation_defined.md U1: "any value"; R131:
"the old bits may still be driven"). The first argument is State's draw counter, the second the bits `RESULT` holds.
Nothing can evaluate it. UNVERIFIED by design, safe; assumption log 3. -/
opaque resDataOutsideDone : Nat → BitVec 64 → BitVec 64

end Sys2Proof.Config
end

