-- ==== Sys2Proof/Word.lean ====
section
/-! DEFINITION. The bit-vector types of the block (spec/00_scope.md R6, R7). Bit 0 is the least significant bit. -/

namespace Sys2Proof

/-- A 64-bit value: a lane, a block word, `LEN`, `RESULT` (R6). Its `+` and `*` wrap modulo 2^64 (R8). -/
abbrev Word := BitVec 64

/-- A message byte: an 8-bit pattern (spec/20_memory.md R39). -/
abbrev Byte := BitVec 8

/-- The `data` field of a command: 16 byte lanes (spec/30_encoding.md R51). -/
abbrev Data := BitVec 128

/-- A command word `CMD` (spec/30_encoding.md R48). -/
abbrev Cmd := BitVec 136

end Sys2Proof
end

