-- ==== Sys2Proof/Syntax.lean ====
section
/-! DEFINITION. The commands of the block, one constructor per row of spec/opcode_table.json (spec/30_encoding.md R55).

An instruction carries the operands its command reads (R52 to R54) and nothing else: the data bits a command does not
read are ignored (R59) and have no place here (assumption log 16). -/

namespace Sys2Proof

/-- The five commands by name: what the legality table of spec/60_exceptions.md R106 is indexed by. -/
inductive Command where
  | nop
  | init
  | block
  | tail
  | final
  deriving DecidableEq, Repr

/-- The instruction set of the block. -/
inductive Instr where
  /-- NOP (R71). -/
  | nop
  /-- INIT `seed` (R52, R72). -/
  | init (seed : BitVec 32)
  /-- BLOCK `k1`, `k2` (R53, R73). -/
  | block (k1 k2 : Word)
  /-- TAIL: chunk bytes 0 to `tlen - 1`, in message order; `tlen` is their number (R54, R80). -/
  | tail (bytes : List Byte)
  /-- FINAL (R93). -/
  | final
  deriving DecidableEq, Repr

namespace Instr

/-- The command an instruction is. -/
def command : Instr → Command
  | .nop => .nop
  | .init _ => .init
  | .block _ _ => .block
  | .tail _ => .tail
  | .final => .final

end Instr

end Sys2Proof
end

