-- ==== Sys2Proof/WellFormed.lean ====
section
/-! DEFINITION. Which instruction terms some command word stands for. -/

namespace Sys2Proof.Instr

/-- A TAIL carries at most `TAIL_MAX` bytes: `tlen` is "an unsigned 4-bit number 0 to 15" (spec/30_encoding.md R50), and
"a TAIL string of more than 15 bytes" is an assembly error (R63). The operands of the other commands are bit vectors of the
width of their field, so no term of theirs is ill-formed. -/
def wellFormed : Instr → Bool
  | .nop => true
  | .init _ => true
  | .block _ _ => true
  | .tail bytes => decide (bytes.length ≤ Config.tailMax)
  | .final => true

end Sys2Proof.Instr
end

