-- ==== Sys2Proof/Decode.lean ====
section
/-! DEFINITION. The command word: its fields, the total decoder, the opcode table and the encoder
(spec/30_encoding.md R48 to R61). -/

namespace Sys2Proof

/-- `cmd.op = CMD[3:0]` (R48). -/
def cmdOp (w : Cmd) : BitVec 4 := w.extractLsb' 0 4

/-- `cmd.tlen = CMD[7:4]` (R48). -/
def cmdTlen (w : Cmd) : BitVec 4 := w.extractLsb' 4 4

/-- `cmd.data = CMD[135:8]` (R48). -/
def cmdData (w : Cmd) : Data := w.extractLsb' 8 128

/-- `CMD = (cmd.data, cmd.tlen, cmd.op)` (R48). -/
def mkCmd (op tlen : BitVec 4) (data : Data) : Cmd := data ++ tlen ++ op

/-- Byte lane `j` of `data`: `data[8j+7:8j]` (R51). -/
def byteLane (data : Data) (j : Nat) : Byte := data.extractLsb' (8 * j) 8

/-- Lanes 0 to `n - 1`, in message order. -/
def lanes (data : Data) (n : Nat) : List Byte := (List.range n).map (byteLane data)

/-- `data` whose lane `j` is byte `j` of the list, and whose further lanes are zero (R63). -/
def packBytes : List Byte → Data
  | [] => 0
  | b :: bs => (packBytes bs <<< 8) ||| b.setWidth 128

/-- INIT's operand: `seed = data[31:0]` (R52). -/
def seedOf (data : Data) : BitVec 32 := data.extractLsb' 0 32

/-- BLOCK's first operand: `k1 = data[63:0]` (R53). -/
def k1Of (data : Data) : Word := data.extractLsb' 0 64

/-- BLOCK's second operand: `k2 = data[127:64]` (R53). -/
def k2Of (data : Data) : Word := data.extractLsb' 64 64

/-- BLOCK's data, `(k2, k1)` (R53). -/
def blockData (k1 k2 : Word) : Data := k2 ++ k1

/-- Why a word decodes to `ILLEGAL` (R56 to R58). -/
inductive Reject where
  /-- `op` is `0x5` to `0xF` (R57). -/
  | reservedOp (op : BitVec 4)
  /-- `tlen` is not zero and the command is not TAIL (R58). -/
  | reservedTlen (op tlen : BitVec 4)
  deriving DecidableEq, Repr

/-- The instruction if `tlen` is zero, as every command but TAIL demands (R58). -/
def needTlenZero (w : Cmd) (i : Instr) : Except Reject Instr :=
  if cmdTlen w = 0 then .ok i else .error (.reservedTlen (cmdOp w) (cmdTlen w))

/-- R56: total on every word; an error is the spec's `ILLEGAL`. -/
def decode (w : Cmd) : Except Reject Instr :=
  match (cmdOp w).toNat with
  | 0x0 => needTlenZero w .nop
  | 0x1 => needTlenZero w (.init (seedOf (cmdData w)))
  | 0x2 => needTlenZero w (.block (k1Of (cmdData w)) (k2Of (cmdData w)))
  | 0x3 => .ok (.tail (lanes (cmdData w) (cmdTlen w).toNat))
  | 0x4 => needTlenZero w .final
  | _ => .error (.reservedOp (cmdOp w))

/-- One row of the opcode map: a word is the row's command exactly when it agrees with `bits` on `mask`. -/
structure OpcodeRow where
  command : Command
  bits : Cmd
  mask : Cmd
  deriving DecidableEq, Repr

/-- The opcode map of R55, as spec/opcode_table.json gives it on the whole `CMD`. -/
def opcodeTable : List OpcodeRow :=
  [ ⟨.nop, 0x00, 0xFF⟩,
    ⟨.init, 0x01, 0xFF⟩,
    ⟨.block, 0x02, 0xFF⟩,
    ⟨.tail, 0x03, 0x0F⟩,
    ⟨.final, 0x04, 0xFF⟩ ]

/-- The word is this row's command (R55). -/
def OpcodeRow.selects (row : OpcodeRow) (w : Cmd) : Bool := w &&& row.mask == row.bits

/-- The command word of an instruction, with zeros in the data bits the command does not read (R63). -/
def encode : Instr → Cmd
  | .nop => mkCmd 0x0 0 0
  | .init seed => mkCmd 0x1 0 (seed.setWidth 128)
  | .block k1 k2 => mkCmd 0x2 0 (blockData k1 k2)
  | .tail bytes => mkCmd 0x3 (BitVec.ofNat 4 bytes.length) (packBytes bytes)
  | .final => mkCmd 0x4 0 0

/-- The word whose bits `nbits - 1` to 0 are those of `w` and whose further bits are zero (assumption log 18). -/
def tableWord (nbits w : Nat) : Cmd := BitVec.ofNat 136 (w % 2 ^ nbits)

/-- The decoder on a word given as the opcode table numbers its bits: `CMD` itself (R48, R55). -/
def decodeTableWord (nbits w : Nat) : Option Instr :=
  match decode (tableWord nbits w) with
  | .ok i => some i
  | .error _ => none

end Sys2Proof
end

