-- ==== Sys2Proof/Machine/State.lean ====
section
/-! DEFINITION. The architectural state of one block instance (spec/10_state.md R15 to R30), the inputs still to come, and the
reset state. -/

namespace Sys2Proof.Machine

/-- `PHASE` (R20). The values 5 to 7 are "never entered", and a model's phase type has exactly the five named values
(spec/93_implementation_defined.md U6; assumption log 12). -/
inductive Phase where
  /-- 0: after reset, no message open. -/
  | idle
  /-- 1: after INIT; blocks are being absorbed. -/
  | absorb
  /-- 2: after TAIL; only finalization may follow. -/
  | tailed
  /-- 3: after FINAL; `RESULT` is valid. -/
  | done
  /-- 4: after an error; `CAUSE` says why. -/
  | error
  deriving DecidableEq, Repr

/-- `CAUSE` (R21, spec/60_exceptions.md R104). Codes 3 to 15 are never written (assumption log 12). -/
inductive Cause where
  /-- 0: no error since INIT or reset. -/
  | none
  /-- 1: the word decodes to `ILLEGAL`. -/
  | illegal
  /-- 2: a legally encoded command in a phase where it is not legal. -/
  | sequence
  deriving DecidableEq, Repr

/-- The values of the block's handshake and command signals at one rising edge of `clk` (R33). `cmdReady` is the block's own
output; when it is high is `READY_POLICY` and `LATENCY`, both open, so the edge carries it as free data
(assumption log 5). -/
structure Edge where
  rst : Bool
  cmdValid : Bool
  cmdReady : Bool
  cmdOp : BitVec 4
  cmdTlen : BitVec 4
  cmdData : Data
  deriving DecidableEq, Repr

/-- The state: the six registers of R15, and the model's own two fields. -/
structure State where
  /-- `H1` (R16). -/
  h1 : Word
  /-- `H2` (R17). -/
  h2 : Word
  /-- `LEN` (R19). -/
  len : Word
  /-- `PHASE` (R20). -/
  phase : Phase
  /-- `CAUSE` (R21). -/
  cause : Cause
  /-- `RESULT` (R22). -/
  result : Word
  /-- The model's own: the clock edges still to come, oldest first (assumption log 4). -/
  edges : List Edge
  /-- The model's own: indexes the free value `res_data` shows outside `DONE` (assumption log 3). -/
  portDraw : Nat
  deriving DecidableEq, Repr

/-- Why the model stops. No step raises one: every error of the block is a next state (spec/60_exceptions.md R122). -/
inductive Fault where
  /-- Raised by a host's read of `RESULT` outside `DONE`, where it "holds no value" (R22; U1 `fault`). Safe. Never by a step. -/
  | resultHoldsNoValue
  deriving DecidableEq, Repr

/-- Why an instruction has no meaning. -/
inductive Refusal where
  /-- Raised by `exec` for an instruction that has no meaning yet. Safe. No arm raises it. -/
  | notModelled (mnemonic : String)
  deriving DecidableEq, Repr

/-- The state after reset (R30, spec/70_reset_and_hazards.md R123). DESIGN CHOICE, unsafe: `H1`, `H2`, `LEN`, `RESULT`, for which
the spec gives no value, are zero (assumption log 1). No edge stands ready: nothing runs until the host sends a command (R124;
assumption log 4). -/
def State.reset : State where
  h1 := 0
  h2 := 0
  len := 0
  phase := .idle
  cause := .none
  result := 0
  edges := []
  portDraw := 0

end Sys2Proof.Machine
end

