-- ==== Sys2Proof/Machine/Ops.lean ====
section
/-! DEFINITION. The shared operations: register writes, the legality table, error entry, the gate every command passes, and the
reset edge (spec/60_exceptions.md R104 to R112, spec/70_reset_and_hazards.md R123). -/

namespace Sys2Proof.Machine

/-- The outcome of a step of this machine. -/
abbrev Result := Host.Outcome State Fault Refusal

namespace State

/-- `(H1, H2) <- v`. -/
def setLanes (v : Word × Word) (s : State) : State := { s with h1 := v.1, h2 := v.2 }

/-- `LEN <- n`. -/
def setLen (n : Word) (s : State) : State := { s with len := n }

/-- `LEN <- LEN + n`, modulo 2^64 (spec/10_state.md R19). -/
def addLen (n : Word) (s : State) : State := { s with len := s.len + n }

/-- `PHASE <- p`. -/
def setPhase (p : Phase) (s : State) : State := { s with phase := p }

/-- `CAUSE <- c`. -/
def setCause (c : Cause) (s : State) : State := { s with cause := c }

/-- `RESULT <- v`. -/
def setResult (v : Word) (s : State) : State := { s with result := v }

/-- TAKING AN ERROR, `raise Error(c)` (R107): `CAUSE` and `PHASE` and nothing else. It transfers no control and saves nothing
(R112); the return from it is INIT (R111). -/
def raiseError (c : Cause) (s : State) : State := (s.setCause c).setPhase .error

/-- One edge with `rst = 1` (R123). `H1`, `H2`, `LEN` get the values the model names (assumption log 1). Reset does "not write"
`RESULT` (spec/10_state.md R22), so its bits stay, though they are a value no more (assumption log 17). The two fields of the
model's own are no registers and stay. -/
def resetEdge (s : State) : State :=
  { State.reset with result := s.result, edges := s.edges, portDraw := s.portDraw }

end State

/-- What the legality table says of a command in a phase (R106). -/
inductive Legality where
  /-- "ok" runs the command's rule. -/
  | ok
  /-- `SEQ` raises `Error(SEQUENCE)`. -/
  | seq
  /-- "ignored" has no effect at all (R110). -/
  | ignored
  deriving DecidableEq, Repr

/-- The table of R106. -/
def legality : Command → Phase → Legality
  | .nop, .error => .ignored
  | .nop, _ => .ok
  | .init, _ => .ok
  | .block, .absorb => .ok
  | .block, .error => .ignored
  | .block, _ => .seq
  | .tail, .absorb => .ok
  | .tail, .error => .ignored
  | .tail, _ => .seq
  | .final, .absorb => .ok
  | .final, .tailed => .ok
  | .final, .error => .ignored
  | .final, _ => .seq

/-- Checks 1, 3 and 4 of R109 for a legally encoded command: run its rule, raise `SEQUENCE`, or ignore it. -/
def gated (c : Command) (rule : State → State) (s : State) : Result :=
  match legality c s.phase with
  | .ok => .next (rule s)
  | .seq => .next (s.raiseError .sequence)
  | .ignored => .next s

/-- An accepted word that decodes to `ILLEGAL`: checks 1 and 2 of R109 (R105, R110). -/
def acceptIllegal (s : State) : Result :=
  if s.phase = .error then .next s else .next (s.raiseError .illegal)

end Sys2Proof.Machine
end

