-- ==== Sys2Proof/Machine/Operands.lean ====
section
/-! DEFINITION. How operand bytes and fields become 64-bit values (spec/00_scope.md R9, spec/20_memory.md R35,
spec/30_encoding.md R52, spec/42_tail_processor.md R84). -/

namespace Sys2Proof.Machine

/-- `zext_64` (R9, R52). -/
def zext64 {n : Nat} (v : BitVec n) : Word := v.setWidth 64

/-- `sext_64(b)`: the byte read as a two's-complement 8-bit value (R9, R84). -/
def sext64 (b : Byte) : Word := b.signExtend 64

/-- `LE64(b0, ..., b7)`: `b0` is bits 7:0 (R9). Missing bytes read as zero (spec/42_tail_processor.md R92). -/
def le64 : List Byte → Word
  | [] => 0
  | b :: bs => (le64 bs <<< 8) ||| zext64 b

end Sys2Proof.Machine
end

