-- ==== Sys2Proof/Machine/Primitives.lean ====
section
/-! DEFINITION. The rotation, the mixing constants and the word mixes that BLOCK and TAIL share
(spec/40_init_and_control.md R66 to R70). -/

namespace Sys2Proof.Machine

/-- `rotl64(x, r) = (x << r) | (x >>> (64 - r))`, for `0 < r < 64` (R66). -/
def rotl64 (x : Word) (r : Nat) : Word := (x <<< r) ||| (x >>> (64 - r))

/-- `c1` (R67). -/
def c1 : Word := 0x87c37b91114253d5

/-- `c2` (R67). -/
def c2 : Word := 0x4cf5ad432745937f

/-- `mixK1` (R69): `c1`, rotation 31, `c2`. -/
def mixK1 (k : Word) : Word := rotl64 (k * c1) 31 * c2

/-- `mixK2` (R70): `c2`, rotation 33, `c1`. -/
def mixK2 (k : Word) : Word := rotl64 (k * c2) 33 * c1

end Sys2Proof.Machine
end

