-- ==== Sys2Proof/Machine/BlockMixer.lean ====
section
/-! DEFINITION. BLOCK (spec/41_block_mixer.md R73 to R79). -/

namespace Sys2Proof.Machine

/-- The new `h1` (R74, first line of the source): reads the old `h2` (R75). -/
def blockH1 (h1 h2 k1 : Word) : Word := (rotl64 (h1 ^^^ mixK1 k1) 27 + h2) * 5 + 0x52dce729

/-- The new `h2` (R74, second line of the source), from the old `h2` and the NEW `h1` (R75). -/
def blockH2 (h1New h2 k2 : Word) : Word := (rotl64 (h2 ^^^ mixK2 k2) 31 + h1New) * 5 + 0x38495ab5

/-- `blockMix` (R74): the new lanes. -/
def blockMix (h1 h2 k1 k2 : Word) : Word × Word :=
  let h1New := blockH1 h1 h2 k1
  (h1New, blockH2 h1New h2 k2)

/-- The rule of BLOCK (R73): mix, and count 16 bytes (R77). `PHASE` stays. -/
def absorbBlock (k1 k2 : Word) (s : State) : State :=
  (s.setLanes (blockMix s.h1 s.h2 k1 k2)).addLen (BitVec.ofNat 64 Config.blockBytes)

/-- BLOCK (R73). -/
def execBlock (k1 k2 : Word) (s : State) : Result := gated .block (absorbBlock k1 k2) s

end Sys2Proof.Machine
end

