-- ==== Sys2Proof/Machine/Control.lean ====
section
/-! DEFINITION. NOP and INIT (spec/40_init_and_control.md R71, R72). -/

namespace Sys2Proof.Machine

/-- NOP (R71): no effect. -/
def execNop (s : State) : Result := gated .nop id s

/-- The rule of INIT (R72). `RESULT` is not written. -/
def openMessage (seed : BitVec 32) (s : State) : State :=
  (((s.setLanes (zext64 seed, zext64 seed)).setLen 0).setCause .none).setPhase .absorb

/-- INIT (R72): open a message; also the return from `ERROR` (R111). -/
def execInit (seed : BitVec 32) (s : State) : Result := gated .init (openMessage seed) s

end Sys2Proof.Machine
end

