-- ==== Sys2Proof/Machine/Finalizer.lean ====
section
/-! DEFINITION. FINAL (spec/43_finalizer.md R93 to R99). -/

namespace Sys2Proof.Machine

/-- `k ^ (k >>> 33)`, the shift logical (R95). -/
def xorShift33 (k : Word) : Word := k ^^^ (k >>> 33)

/-- `fmix64` (R95). -/
def fmix64 (k : Word) : Word :=
  xorShift33 (xorShift33 (xorShift33 k * 0xff51afd7ed558ccd) * 0xc4ceb9fe1a85ec53)

/-- `h1 += h2; h2 += h1`: the second addition reads the new `h1` (R94). -/
def crossAdd (h1 h2 : Word) : Word × Word := (h1 + h2, h2 + (h1 + h2))

/-- `finalize` (R94): fold the length into both lanes, cross-add, avalanche, cross-add. -/
def finalize (h1 h2 len : Word) : Word × Word :=
  let v := crossAdd (h1 ^^^ len) (h2 ^^^ len)
  crossAdd (fmix64 v.1) (fmix64 v.2)

/-- The rule of FINAL (R93): `RESULT` gets the new `H1` (R98). -/
def finishMessage (s : State) : State :=
  let v := finalize s.h1 s.h2 s.len
  ((s.setLanes v).setResult v.1).setPhase .done

/-- FINAL (R93). -/
def execFinal (s : State) : Result := gated .final finishMessage s

end Sys2Proof.Machine
end

