-- ==== Sys2Proof/Machine/TailProcessor.lean ====
section
/-! DEFINITION. TAIL (spec/42_tail_processor.md R80 to R92). -/

namespace Sys2Proof.Machine

/-- Folds bytes into an accumulator from zero (R82), the last byte first (R85, R87): byte `i` of the list, sign-extended (R84),
shifted left by `8*i`, is combined by exclusive-or (R83). -/
def foldTail (bytes : List Byte) : Word :=
  bytes.zipIdx.foldr (fun p k => k ^^^ (sext64 p.1 <<< (8 * p.2))) 0

/-- The tail's `k1`: bytes 0 to `min(tlen, 8) - 1` (R87). -/
def tailK1 (bytes : List Byte) : Word := foldTail (bytes.take 8)

/-- The tail's `k2`: bytes 8 to `tlen - 1`, byte `i` at shift `8*(i-8)` (R85; spec/90_conflicts.md C1). -/
def tailK2 (bytes : List Byte) : Word := foldTail (bytes.drop 8)

/-- `tailMix` (R81): `h2` takes `k2` if and only if `tlen >= 9` (R86), `h1` takes `k1` if and only if `tlen >= 1` (R88). -/
def tailMix (h1 h2 : Word) (bytes : List Byte) : Word × Word :=
  (if 1 ≤ bytes.length then h1 ^^^ mixK1 (tailK1 bytes) else h1,
   if 9 ≤ bytes.length then h2 ^^^ mixK2 (tailK2 bytes) else h2)

/-- The rule of TAIL (R80): mix, count `tlen` bytes (R91), move to `TAILED`. -/
def absorbTail (bytes : List Byte) (s : State) : State :=
  ((s.setLanes (tailMix s.h1 s.h2 bytes)).addLen (BitVec.ofNat 64 bytes.length)).setPhase .tailed

/-- TAIL (R80). -/
def execTail (bytes : List Byte) (s : State) : Result := gated .tail (absorbTail bytes) s

end Sys2Proof.Machine
end

