-- ==== Sys2Proof/Machine/Dispatch.lean ====
section
/-! DEFINITION. One arm per command: which meaning runs it. -/

namespace Sys2Proof.Machine

def exec (i : Instr) (s : State) : Host.Outcome State Fault Refusal :=
  match i with
  | .nop => Sys2Proof.Machine.execNop s
  | .init seed => Sys2Proof.Machine.execInit seed s
  | .block k1 k2 => Sys2Proof.Machine.execBlock k1 k2 s
  | .tail bytes => Sys2Proof.Machine.execTail bytes s
  | .final => Sys2Proof.Machine.execFinal s

end Sys2Proof.Machine
end

