-- ==== Sys2Proof/Machine/Accept.lean ====
section
/-! DEFINITION. Accepting a command word, what happens at one clock edge, and a stream of commands
(spec/60_exceptions.md R105 to R110, spec/70_reset_and_hazards.md R123, R127, spec/20_memory.md R44). -/

namespace Sys2Proof.Machine

namespace Edge

/-- The word on the command signals: `(cmd_data, cmd_tlen, cmd_op)` (R127). -/
def word (e : Edge) : Cmd := mkCmd e.cmdOp e.cmdTlen e.cmdData

/-- The level of the `cmd_ready` output: 0 while `rst = 1` (R123). -/
def ready (e : Edge) : Bool := e.cmdReady && !e.rst

/-- A command is accepted at this edge: `rst = 0`, `cmd_valid = 1` and `cmd_ready = 1` (R127). -/
def accepts (e : Edge) : Bool := !e.rst && e.cmdValid && e.ready

/-- Nothing happens at this edge: no reset and no acceptance (R127, R133). -/
def isIdle (e : Edge) : Bool := !e.rst && !e.accepts

/-- The edge at which a ready block is offered the word `w`. -/
def accepting (w : Cmd) : Edge := ⟨false, true, true, Sys2Proof.cmdOp w, Sys2Proof.cmdTlen w, Sys2Proof.cmdData w⟩

end Edge

/-- An accepted word takes effect, by the priority of R109. -/
def accept (w : Cmd) (s : State) : Result :=
  match decode w with
  | .ok i => exec i s
  | .error _ => acceptIllegal s

/-- One rising edge of `clk` (R123, R127): reset, else an acceptance, else no register changes. -/
def clockEdge (e : Edge) (s : State) : Result :=
  if e.rst then .next s.resetEdge
  else if e.accepts then accept e.word s
  else .next s

/-- What follows takes effect on the state an outcome leaves; a stop stays a stop (R44). -/
def andThen (r : Result) (f : State → Result) : Result :=
  match r with
  | .next s => f s
  | .fault e => .fault e
  | .refused e => .refused e

/-- The left-to-right composition of the commands of a stream (R44). -/
def execAll : List Instr → State → Result
  | [], s => .next s
  | i :: is, s => andThen (exec i s) (execAll is)

/-- The left-to-right composition of a stream of accepted words (R44). -/
def acceptAll : List Cmd → State → Result
  | [], s => .next s
  | w :: ws, s => andThen (accept w s) (acceptAll ws)

/-- What a list of edges does to the registers, one edge after the other (R127, R123). -/
def runEdges : List Edge → State → Result
  | [], s => .next s
  | e :: es, s => andThen (clockEdge e s) (runEdges es)

/-- The edges at which something happens (R133: "cycles in which nothing is accepted are not steps"). -/
def activeEdges (es : List Edge) : List Edge := es.filter fun e => !e.isIdle

end Sys2Proof.Machine
end

