-- ==== Sys2Proof/Machine/Step.lean ====
section
/-! DEFINITION. One step: the next edge at which something happens (spec/70_reset_and_hazards.md R123, R127, R133). -/

namespace Sys2Proof.Machine

/-- One step takes the first edge still to come that is not idle; the idle edges before it are no steps (R133) and change no
register (R121, R127). With no such edge left nothing changes (assumption log 6). -/
def step (s : State) : Host.Outcome State Fault Refusal :=
  match s.edges.dropWhile Edge.isIdle with
  | [] => .next { s with edges := [] }
  | e :: rest => clockEdge e { s with edges := rest, portDraw := s.portDraw + 1 }

/-- `s` with the host offering, at the very next edge and to a ready block, the word the opcode table numbers `w`
(assumption log 7). -/
def State.withFetchWord (s : State) (nbits w : Nat) : State :=
  { s with edges := Edge.accepting (tableWord nbits w) :: s.edges }

end Sys2Proof.Machine
end

