-- ==== Sys2Proof/Machine/Assembler.lean ====
section
/-! DEFINITION. The assembler text, its assembly into words, the pseudo-instruction `HASH` and the disassembler
(spec/30_encoding.md R62 to R65). What R62 leaves open of the text is settled in assumption log 11. -/

namespace Sys2Proof.Asm

/-- One line of the assembler, but for the pseudo-instruction (R62). Byte strings are in message order. -/
inductive Line where
  | nop
  | init (seed : Nat)
  | block (bytes : List Byte)
  | tail (bytes : List Byte)
  | final
  /-- `.cmd op, tlen, x"..."`: a raw word. -/
  | cmd (op tlen : Nat) (bytes : List Byte)
  deriving DecidableEq, Repr

/-- A line or the pseudo-instruction `HASH` (R64), "the only pseudo-instruction". -/
inductive Item where
  | line (l : Line)
  | hash (seed : Nat) (bytes : List Byte)
  deriving DecidableEq, Repr

/-- Why a text does not assemble (R63; the last three are the model's, assumption log 11). -/
inductive AsmError where
  /-- "a seed above `0xffffffff`". -/
  | seedTooLarge
  /-- "a BLOCK string of other than 16 bytes". -/
  | blockNotSixteen
  /-- "a TAIL string of more than 15 bytes". -/
  | tailTooLong
  /-- A `.cmd` number that its 4-bit field does not hold. -/
  | fieldTooLarge
  /-- A `.cmd` string of other than 16 bytes. -/
  | lanesNotSixteen
  /-- The text is no line of R62. -/
  | malformed
  deriving DecidableEq, Repr

/-- Assembly of one line into its word (R63). -/
def assembleLine : Line → Except AsmError Cmd
  | .nop => .ok (mkCmd 0x0 0 0)
  | .init seed => if seed < 2 ^ 32 then .ok (mkCmd 0x1 0 (BitVec.ofNat 128 seed)) else .error .seedTooLarge
  | .block bytes => if bytes.length = 16 then .ok (mkCmd 0x2 0 (packBytes bytes)) else .error .blockNotSixteen
  | .tail bytes =>
    if bytes.length ≤ 15 then .ok (mkCmd 0x3 (BitVec.ofNat 4 bytes.length) (packBytes bytes)) else .error .tailTooLong
  | .final => .ok (mkCmd 0x4 0 0)
  | .cmd op tlen bytes =>
    if op < 16 ∧ tlen < 16 then
      if bytes.length = 16 then .ok (mkCmd (BitVec.ofNat 4 op) (BitVec.ofNat 4 tlen) (packBytes bytes))
      else .error .lanesNotSixteen
    else .error .fieldTooLarge

/-- The expansion of `HASH seed, x"bytes"` (R64). -/
def expandHash (seed : Nat) (bytes : List Byte) : List Line :=
  .init seed :: ((List.range (bytes.length / 16)).map fun i => .block ((bytes.drop (16 * i)).take 16))
    ++ (if bytes.length % 16 = 0 then [] else [.tail (bytes.drop (16 * (bytes.length / 16)))]) ++ [.final]

/-- The lines an item stands for. -/
def Item.lines : Item → List Line
  | .line l => [l]
  | .hash seed bytes => expandHash seed bytes

/-- Assembly of lines, in order, stopping at the first error. -/
def assembleLines : List Line → Except AsmError (List Cmd)
  | [] => .ok []
  | l :: ls =>
    match assembleLine l, assembleLines ls with
    | .ok w, .ok ws => .ok (w :: ws)
    | .ok _, .error e => .error e
    | .error e, _ => .error e

/-- Assembly of one item into its words (R63, R64). -/
def assemble (item : Item) : Except AsmError (List Cmd) := assembleLines item.lines

/-- Disassembly (R65): by R56's decode, and `.cmd` for a word that decodes to `ILLEGAL`. -/
def disassemble (w : Cmd) : Line :=
  match decode w with
  | .ok .nop => .nop
  | .ok (.init seed) => .init seed.toNat
  | .ok (.block k1 k2) => .block (lanes (blockData k1 k2) 16)
  | .ok (.tail bytes) => .tail bytes
  | .ok .final => .final
  | .error _ => .cmd (cmdOp w).toNat (cmdTlen w).toNat (lanes (cmdData w) 16)

/-! ### Text -/

/-- One hex digit. -/
def hexDigit (n : Nat) : Char := if n < 10 then Char.ofNat (48 + n) else Char.ofNat (87 + n)

/-- `n` as hex digits, `width` of them, most significant first. -/
def hexNumber (width n : Nat) : List Char :=
  (List.range width).map fun i => hexDigit (n / 16 ^ (width - 1 - i) % 16)

/-- A byte string: two hex digits a byte, the first pair being chunk byte 0 (R62). -/
def printBytes (bytes : List Byte) : List Char :=
  ['x', '"'] ++ bytes.flatMap (fun b => hexNumber 2 b.toNat) ++ ['"']

/-- The text of a line (R62, R65). Numbers are printed in hex. -/
def printLine : Line → List Char
  | .nop => ['N', 'O', 'P']
  | .init seed => ['I', 'N', 'I', 'T', ' ', '0', 'x'] ++ hexNumber 8 seed
  | .block bytes => ['B', 'L', 'O', 'C', 'K', ' '] ++ printBytes bytes
  | .tail bytes => ['T', 'A', 'I', 'L', ' '] ++ printBytes bytes
  | .final => ['F', 'I', 'N', 'A', 'L']
  | .cmd op tlen bytes =>
    ['.', 'c', 'm', 'd', ' ', '0', 'x'] ++ hexNumber 1 op ++ [',', ' ', '0', 'x'] ++ hexNumber 1 tlen ++ [',', ' '] ++ printBytes bytes

/-- What a line of text is made of. -/
inductive Token where
  /-- A mnemonic or a number. -/
  | word (text : List Char)
  | comma
  /-- The digits between `x"` and `"`. -/
  | digits (text : List Char)
  deriving DecidableEq, Repr

/-- Where the scanner stands: between tokens, in a word or in a byte string (read so far, reversed). -/
inductive Scan where
  | gap
  | inWord (acc : List Char)
  | inString (acc : List Char)
  deriving DecidableEq, Repr

/-- A space, a tab or a carriage return. -/
def isBlank (c : Char) : Bool := c == ' ' || c == '\t' || c == '\r'

/-- Puts a token before those of the rest of the line. -/
def push (t : Token) (rest : Except AsmError (List Token)) : Except AsmError (List Token) :=
  match rest with
  | .ok ts => .ok (t :: ts)
  | .error e => .error e

/-- The tokens of a line. A `;` starts a comment to the end of the line (R62). -/
def scan : Scan → List Char → Except AsmError (List Token)
  | .gap, [] => .ok []
  | .inWord acc, [] => .ok [.word acc.reverse]
  | .inString _, [] => .error .malformed
  | .gap, c :: cs =>
    if c = ';' then .ok []
    else if isBlank c then scan .gap cs
    else if c = ',' then push .comma (scan .gap cs)
    else scan (.inWord [c]) cs
  | .inWord acc, c :: cs =>
    if c = ';' then .ok [.word acc.reverse]
    else if isBlank c then push (.word acc.reverse) (scan .gap cs)
    else if c = ',' then push (.word acc.reverse) (push .comma (scan .gap cs))
    else if c = '"' then (if acc = ['x'] then scan (.inString []) cs else .error .malformed)
    else scan (.inWord (c :: acc)) cs
  | .inString acc, c :: cs =>
    if c = '"' then push (.digits acc.reverse) (scan .gap cs) else scan (.inString (c :: acc)) cs

/-- The value of a hex digit, of either case. -/
def hexValue (c : Char) : Option Nat :=
  let n := c.toNat
  if 48 ≤ n ∧ n ≤ 57 then some (n - 48)
  else if 97 ≤ n ∧ n ≤ 102 then some (n - 87)
  else if 65 ≤ n ∧ n ≤ 70 then some (n - 55)
  else none

/-- The number that digits in a base spell after a prefix of value `acc`. -/
def digitsValue (base acc : Nat) : List Char → Option Nat
  | [] => some acc
  | c :: cs =>
    match hexValue c with
    | some d => if d < base then digitsValue base (base * acc + d) cs else none
    | none => none

/-- "A numeric literal is decimal or `0x` hexadecimal" (R63). -/
def numberOf : List Char → Option Nat
  | [] => none
  | ['0', 'x'] => none
  | '0' :: 'x' :: cs => digitsValue 16 0 cs
  | cs => digitsValue 10 0 cs

/-- The bytes of a byte string, two digits each (R62). -/
def bytesOf : List Char → Option (List Byte)
  | [] => some []
  | [_] => none
  | c :: d :: cs =>
    match hexValue c, hexValue d, bytesOf cs with
    | some h, some l, some bs => some (BitVec.ofNat 8 (16 * h + l) :: bs)
    | _, _, _ => none

/-- A letter in lower case: mnemonics are case-insensitive (R62). DESIGN CHOICE: so are the directive `.cmd` and the
pseudo-instruction `HASH`, of which R62 and R64 do not say it (assumption log 11). -/
def lower (c : Char) : Char := if 65 ≤ c.toNat ∧ c.toNat ≤ 90 then Char.ofNat (c.toNat + 32) else c

/-- A line that takes one byte string. -/
def withBytes (mk : List Byte → Item) (text : List Char) : Except AsmError (Option Item) :=
  match bytesOf text with
  | some bs => .ok (some (mk bs))
  | none => .error .malformed

/-- The item the tokens of a line spell, none for a line with no token (R62). DESIGN CHOICE: `.cmd` and `HASH` are read in either
case, as the mnemonics are (assumption log 11). -/
def parseTokens : List Token → Except AsmError (Option Item)
  | [] => .ok none
  | .word m :: args =>
    let name := m.map lower
    match args with
    | [] =>
      if name = ['n', 'o', 'p'] then .ok (some (.line .nop))
      else if name = ['f', 'i', 'n', 'a', 'l'] then .ok (some (.line .final))
      else .error .malformed
    | [.word n] =>
      if name = ['i', 'n', 'i', 't'] then
        match numberOf n with
        | some seed => .ok (some (.line (.init seed)))
        | none => .error .malformed
      else .error .malformed
    | [.digits t] =>
      if name = ['b', 'l', 'o', 'c', 'k'] then withBytes (fun bs => .line (.block bs)) t
      else if name = ['t', 'a', 'i', 'l'] then withBytes (fun bs => .line (.tail bs)) t
      else .error .malformed
    | [.word n, .comma, .digits t] =>
      if name = ['h', 'a', 's', 'h'] then
        match numberOf n with
        | some seed => withBytes (.hash seed) t
        | none => .error .malformed
      else .error .malformed
    | [.word o, .comma, .word n, .comma, .digits t] =>
      if name = ['.', 'c', 'm', 'd'] then
        match numberOf o, numberOf n with
        | some op, some tlen => withBytes (fun bs => .line (.cmd op tlen bs)) t
        | _, _ => .error .malformed
      else .error .malformed
    | _ => .error .malformed
  | _ => .error .malformed

/-- The item one line of text spells, if any (R62). -/
def parseLine (text : List Char) : Except AsmError (Option Item) :=
  match scan .gap text with
  | .ok ts => parseTokens ts
  | .error e => .error e

/-- The words one line of text assembles to (R62 to R64). -/
def assembleText (text : List Char) : Except AsmError (List Cmd) :=
  match parseLine text with
  | .ok (some item) => assemble item
  | .ok none => .ok []
  | .error e => .error e

/-- The lines of a text (R62: "One command per line"). -/
def splitLines : List Char → List (List Char)
  | [] => [[]]
  | c :: cs =>
    match c == '\n', splitLines cs with
    | true, ls => [] :: ls
    | false, l :: ls => (c :: l) :: ls
    | false, [] => [[c]]

/-- The words a list of lines assembles to, in order, stopping at the first error. -/
def assembleTexts : List (List Char) → Except AsmError (List Cmd)
  | [] => .ok []
  | t :: ts =>
    match assembleText t, assembleTexts ts with
    | .ok ws, .ok rest => .ok (ws ++ rest)
    | .ok _, .error e => .error e
    | .error e, _ => .error e

/-- The words a whole source text assembles to (R62 to R64). -/
def assembleSource (text : List Char) : Except AsmError (List Cmd) := assembleTexts (splitLines text)

end Sys2Proof.Asm
end

