-- ==== Sys2Proof/Machine/Flags.lean ====
section
/-! DEFINITION. The flags, the status word and the outputs, each computed from the registers (spec/10_state.md R20 to R25, R33). -/

namespace Sys2Proof.Machine

/-- The 3-bit value of `PHASE` (R20). -/
def Phase.code : Phase → BitVec 3
  | .idle => 0
  | .absorb => 1
  | .tailed => 2
  | .done => 3
  | .error => 4

/-- The 4-bit value of `CAUSE` (R21, R104). -/
def Cause.code : Cause → BitVec 4
  | .none => 0
  | .illegal => 1
  | .sequence => 2

namespace State

/-- `RES_VALID = (PHASE = DONE)` (R23). -/
def resValid (s : State) : Bool := decide (s.phase = .done)

/-- `ERR = (PHASE = ERROR)` (R24). -/
def err (s : State) : Bool := decide (s.phase = .error)

/-- `STATUS` (R25): `CAUSE` 11:8, zeros 7:5, `ERR` 4, `RES_VALID` 3, `PHASE` 2:0. -/
def status (s : State) : BitVec 12 :=
  s.cause.code ++ (0 : BitVec 3) ++ BitVec.ofBool s.err ++ BitVec.ofBool s.resValid ++ s.phase.code

/-- A host's read of `RESULT` as a value: it has one only in `DONE` (R22; spec/93_implementation_defined.md U1). -/
def readResult (s : State) : Except Fault Word :=
  if s.resValid then .ok s.result else .error .resultHoldsNoValue

/-- The bits on `res_data` (R33): `RESULT` in `DONE`, any value elsewhere (U1; assumption log 3). -/
def resData (s : State) : Word :=
  if s.resValid then s.result else Config.resDataOutsideDone s.portDraw s.result

/-- The 128-bit digest after FINAL: `H1` its low half, `H2` its high half (spec/43_finalizer.md R103). -/
def digest (s : State) : BitVec 128 := s.h2 ++ s.h1

end State

/-- The block's outputs while `cmd_ready = 1` (R33, spec/70_reset_and_hazards.md R129). -/
structure Outputs where
  resValid : Bool
  resData : Word
  status : BitVec 12
  deriving DecidableEq, Repr

/-- What the block drives in a state. -/
def State.outputs (s : State) : Outputs := ⟨s.resValid, s.resData, s.status⟩

end Sys2Proof.Machine
end

