-- ==== Sys2Proof/Machine/Hash128.lean ====
section
/-! DEFINITION. The whole-message function `hash128_x64` (spec/43_finalizer.md R100, spec/00_scope.md R2) and the commands that a
message is sent as (R100, spec/30_encoding.md R64). -/

namespace Sys2Proof.Machine

/-- `nblocks = L / 16` (R100). -/
def nblocks (m : List Byte) : Nat := m.length / Config.blockBytes

/-- `k1` of block `i`: `LE64(m[16i .. 16i+7])` (spec/20_memory.md R35). -/
def blockK1 (m : List Byte) (i : Nat) : Word := le64 ((m.drop (16 * i)).take 8)

/-- `k2` of block `i`: `LE64(m[16i+8 .. 16i+15])` (spec/20_memory.md R35). -/
def blockK2 (m : List Byte) (i : Nat) : Word := le64 ((m.drop (16 * i + 8)).take 8)

/-- The tail bytes `m[16*nblocks .. L-1]` (R100). -/
def messageTail (m : List Byte) : List Byte := m.drop (16 * nblocks m)

/-- The lanes after the blocks (R100). -/
def blockPhase (m : List Byte) (seed : BitVec 32) : Word × Word :=
  (List.range (nblocks m)).foldl (fun h i => blockMix h.1 h.2 (blockK1 m i) (blockK2 m i)) (zext64 seed, zext64 seed)

/-- The final lanes `(h1, h2)` of a message under a seed (R100). -/
def digestLanes (m : List Byte) (seed : BitVec 32) : Word × Word :=
  let b := blockPhase m seed
  let t := tailMix b.1 b.2 (messageTail m)
  finalize t.1 t.2 (BitVec.ofNat 64 m.length)

/-- `hash128_x64(m, s)` (R100): a function of the message and the seed alone, with no state (R2). -/
def hash128 (m : List Byte) (seed : BitVec 32) : Word := (digestLanes m seed).1

/-- The commands a message is sent as (R100): INIT, its blocks, its tail if there is one, FINAL. -/
def messageCommands (seed : BitVec 32) (m : List Byte) : List Instr :=
  .init seed :: ((List.range (nblocks m)).map fun i => .block (blockK1 m i) (blockK2 m i))
    ++ (if m.length % 16 = 0 then [] else [.tail (messageTail m)]) ++ [.final]

end Sys2Proof.Machine
end

