-- ==== Sys2Proof/Machine/Progress.lean ====
section
/-! DEFINITION. The one guarantee on `cmd_ready`, and a host that keeps offering a stream of commands
(spec/70_reset_and_hazards.md R128, R129, R134; spec/93_implementation_defined.md U3). A clock that never ends is an argument of claims and
no part of State, which holds a finite list of edges (assumption log 5). -/

namespace Sys2Proof.Machine

/-- The words accepted at the edges of a list, in order (R127). -/
def acceptedWords (es : List Edge) : List Cmd := (es.filter Edge.accepts).map Edge.word

/-- The signals at every rising edge of a clock that never ends, numbered from 0. -/
abbrev Clock := Nat → Edge

/-- The first `n` edges of a clock, oldest first: what State's list of edges holds of it. -/
def firstEdges (clock : Clock) (n : Nat) : List Edge := (List.range n).map clock

/-- The guarantee of R129: "with `rst = 0` it does rise again after a finite number of cycles". From every edge on there comes one with
`cmd_ready = 1`, unless one with `rst = 1` comes first. "Any claim that a stream ends rests on this assumption" (R134). -/
def readyRisesAgain (clock : Clock) : Prop :=
  ∀ n, ∃ k, n ≤ k ∧ ((clock k).rst = true ∨ (clock k).ready = true)

/-- How many commands are accepted before edge `n`. -/
def acceptedBefore (clock : Clock) (n : Nat) : Nat := (acceptedWords (firstEdges clock n)).length

/-- A host that "keeps offering" (R134) the commands of a stream, each held unchanged until its acceptance (R128) and then the next,
with no reset before the last is accepted; what comes after the last is free. -/
def offersStream (ws : List Cmd) (clock : Clock) : Prop :=
  ∀ n w, ws[acceptedBefore clock n]? = some w →
    (clock n).rst = false ∧ (clock n).cmdValid = true ∧ (clock n).word = w

end Sys2Proof.Machine
end

