-- ==== Sys2Proof/Safety.lean ====
section
/-! DEFINITION. What counts as a good state and as a dutiful host, in the terms the statements use. -/

namespace Sys2Proof.Machine

/-- "`CAUSE` is non-zero exactly when `PHASE = ERROR`" (spec/10_state.md R21). -/
abbrev State.causeMatchesPhase (s : State) : Prop := s.cause.code ≠ 0 ↔ s.phase = .error

/-- While `RESULT` is valid it is the finalized `H1`, which "keeps" its value (spec/43_finalizer.md R98, R99). -/
abbrev State.resultIsLane (s : State) : Prop := s.phase = .done → s.result = s.h1

/-- While blocks are absorbed `LEN` is a whole number of blocks (spec/41_block_mixer.md R77). -/
abbrev State.lenInBlocks (s : State) : Prop := s.phase = .absorb → s.len.toNat % Config.blockBytes = 0

/-- The invariant of the machine. -/
abbrev State.Inv (s : State) : Prop := s.causeMatchesPhase ∧ s.resultIsLane ∧ s.lenInBlocks

/-- Two states show a host the same `STATUS` and the same `RESULT`, or both none (spec/60_exceptions.md R120). -/
abbrev State.agreesWith (s t : State) : Prop :=
  s.status = t.status ∧ s.readResult = t.readResult

/-- The state a command that raises `Error(c)` leaves (spec/60_exceptions.md R107), written out. -/
abbrev State.inError (c : Cause) (s : State) : State := { s with cause := c, phase := .error }

/-- The host offers `w` from the head of the list until its acceptance, holding `cmd_valid` and the word unchanged, and no reset
comes before (spec/70_reset_and_hazards.md R128). -/
def holdsUntilAccepted (w : Cmd) : List Edge → Bool
  | [] => false
  | e :: es => !e.rst && e.cmdValid && (e.word == w) && (e.accepts || holdsUntilAccepted w es)

/-- What the accepted words of a list of edges say: their decoding (none for `ILLEGAL`), with the NOPs left out. -/
def commandsOf (es : List Edge) : List (Option Instr) :=
  ((acceptedWords es).map fun w => (decode w).toOption).filter fun c => c != some .nop

/-- The number of data bits an instruction reads, from bit 0 up (spec/30_encoding.md R52 to R54). -/
def readBits : Instr → Nat
  | .nop => 0
  | .init _ => 32
  | .block _ _ => 128
  | .tail bytes => 8 * bytes.length
  | .final => 0

/-- No edge of the list has `rst = 1`. -/
def noReset (es : List Edge) : Bool := es.all fun e => !e.rst

end Sys2Proof.Machine
end

