-- ==== Sys2Proof/Certificates/Slice0/Obligations.lean ====
section
/-! DEFINITION. The statements for the provers, from the numbered rules of spec/. Each docstring says which rule it formalises. -/

open Sys2Proof Sys2Proof.Machine

/-! ### The command word -/

/-- The words of spec/95_test_vectors.md section 3.9 (V-C1 to V-C12), written out from the encoding, decode as that table says. -/
def Obligations.WrittenOutWordsDecode : Prop :=
  decode 0x0000000000000000000000000000000000 = .ok .nop
  ∧ decode 0x0000000000000000000000000000000101 = .ok (.init 1)
  ∧ decode 0x000000000000000000000000ffffffff01 = .ok (.init 0xffffffff)
  ∧ decode 0x0f0e0d0c0b0a0908070605040302010002 = .ok (.block 0x0706050403020100 0x0f0e0d0c0b0a0908)
  ∧ decode 0x00000000000000000000006f6c6c656853 = .ok (.tail [0x68, 0x65, 0x6c, 0x6c, 0x6f])
  ∧ decode 0x0000000000000000000000000000000003 = .ok (.tail [])
  ∧ decode 0x0000000000000000000000000000000004 = .ok .final
  ∧ decode 0x0f0e0d0c0b0a0908070605040302010012 = .error (.reservedTlen 2 1)
  ∧ decode 0x0000000000000000000000000000000005 = .error (.reservedOp 5)
  ∧ decode 0x00000000000000000000000000000000ff = .error (.reservedOp 0xf)

/-- R48: where the fields of `CMD` lie, bit by bit, `CMD = (data, tlen, op)`, and which signal each field is presented on. -/
def Obligations.CommandWordFields : Prop :=
  (∀ w : Cmd, w = cmdData w ++ cmdTlen w ++ cmdOp w
    ∧ (∀ i < 4, (cmdOp w).getLsbD i = w.getLsbD i)
    ∧ (∀ i < 4, (cmdTlen w).getLsbD i = w.getLsbD (i + 4))
    ∧ ∀ i < 128, (cmdData w).getLsbD i = w.getLsbD (i + 8))
  ∧ ∀ e : Edge, cmdOp e.word = e.cmdOp ∧ cmdTlen e.word = e.cmdTlen ∧ cmdData e.word = e.cmdData

/-- R51 and R52 to R54: the operands of each command are the data bits the rules name, whatever the other bits. -/
def Obligations.OperandsAreDataFields : Prop :=
  ∀ data : Data,
    decode (mkCmd 1 0 data) = .ok (.init (data.extractLsb' 0 32))
    ∧ decode (mkCmd 2 0 data) = .ok (.block (data.extractLsb' 0 64) (data.extractLsb' 64 64))
    ∧ (∀ tlen : BitVec 4, ∃ bytes, decode (mkCmd 3 tlen data) = .ok (.tail bytes)
        ∧ bytes.length = tlen.toNat ∧ ∀ j < tlen.toNat, bytes.getD j 0 = data.extractLsb' (8 * j) 8)
    ∧ decode (mkCmd 0 0 data) = .ok .nop ∧ decode (mkCmd 4 0 data) = .ok .final

/-- R56: which words decode to which command, that every other word is `ILLEGAL`, that such a word raises `Error(ILLEGAL)` unless
`PHASE = ERROR`, and that 20 of the 256 values of `CMD[7:0]` decode to a command. -/
def Obligations.DecoderIsTotalByOpAndTlen : Prop :=
  (∀ w : Cmd,
    (decode w = .ok .nop ↔ cmdOp w = 0 ∧ cmdTlen w = 0)
    ∧ ((∃ seed, decode w = .ok (.init seed)) ↔ cmdOp w = 1 ∧ cmdTlen w = 0)
    ∧ ((∃ k1 k2, decode w = .ok (.block k1 k2)) ↔ cmdOp w = 2 ∧ cmdTlen w = 0)
    ∧ ((∃ bytes, decode w = .ok (.tail bytes)) ↔ cmdOp w = 3)
    ∧ (decode w = .ok .final ↔ cmdOp w = 4 ∧ cmdTlen w = 0)
    ∧ ((∃ r, decode w = .error r) ↔ 5 ≤ (cmdOp w).toNat ∨ (cmdOp w ≠ 3 ∧ cmdTlen w ≠ 0))
    ∧ ∀ r s, decode w = .error r → s.phase ≠ .error → accept w s = .next (s.inError .illegal))
  ∧ ((List.range 256).filter fun n => (decode (BitVec.ofNat 136 n)).toOption.isSome).length = 20

/-- The decoder is the opcode map of R55 (spec/opcode_table.json): a word that a row selects is that row's command, whatever its
other bits; a word no row selects is `ILLEGAL`; and no word is selected by two rows. -/
def Obligations.DecoderFollowsOpcodeTable : Prop :=
  ∀ w : Cmd,
    (∀ row ∈ opcodeTable, row.selects w = true → ∃ i, decode w = .ok i ∧ i.command = row.command)
    ∧ ((∀ row ∈ opcodeTable, row.selects w = false) → ∃ r, decode w = .error r)
    ∧ ∀ a ∈ opcodeTable, ∀ b ∈ opcodeTable, a.selects w = true → b.selects w = true → a = b

/-- R57 and R58: reserved opcodes and a non-zero reserved `tlen` are illegal whatever the other bits, in every phase but `ERROR`. -/
def Obligations.ReservedEncodingsRaiseIllegal : Prop :=
  ∀ (op tlen : BitVec 4) (data : Data) (s : State),
    5 ≤ op.toNat ∨ ((op = 0 ∨ op = 1 ∨ op = 2 ∨ op = 4) ∧ tlen ≠ 0) →
    (∃ r, decode (mkCmd op tlen data) = .error r)
    ∧ (s.phase ≠ .error → accept (mkCmd op tlen data) s = .next (s.inError .illegal))

/-- R59: two words that agree on `op`, `tlen` and the data bits their command reads have the same effect in every state. -/
def Obligations.IgnoredDataBitsHaveNoEffect : Prop :=
  ∀ (w w' : Cmd) (s : State),
    cmdOp w = cmdOp w' → cmdTlen w = cmdTlen w' →
    (cmdOp w = 1 → ∀ j < 32, (cmdData w).getLsbD j = (cmdData w').getLsbD j) →
    (cmdOp w = 2 → cmdData w = cmdData w') →
    (cmdOp w = 3 → ∀ j < 8 * (cmdTlen w).toNat, (cmdData w).getLsbD j = (cmdData w').getLsbD j) →
    accept w s = accept w' s

/-- Decoding an encoded instruction gives it back, with every operand at every value, for every instruction some word stands for
(R48 to R56, R63). -/
def Obligations.DecodeEncodeRoundTrip : Prop :=
  ∀ i : Instr, i.wellFormed = true → decode (encode i) = .ok i

/-- The other direction: a word that decodes gives a well-formed instruction, whose encoding has the word's `op` and `tlen` and every
data bit the command reads (R52 to R54); it may differ in ignored bits only (R59). -/
def Obligations.EncodeKeepsTheBitsRead : Prop :=
  ∀ (w : Cmd) (i : Instr), decode w = .ok i →
    i.wellFormed = true ∧ cmdOp (encode i) = cmdOp w ∧ cmdTlen (encode i) = cmdTlen w
    ∧ ∀ j < readBits i, (cmdData (encode i)).getLsbD j = (cmdData w).getLsbD j

/-- R35: the block words are little-endian, the byte with the lower offset the less significant; bytes on the bus as R36 lays them. -/
def Obligations.BlockWordsAreLittleEndian : Prop :=
  ∀ bytes : List Byte, bytes.length = 16 →
    ∃ k1 k2, decode (mkCmd 2 0 (packBytes bytes)) = .ok (.block k1 k2)
      ∧ ∀ j < 8, ∀ b < 8, k1.getLsbD (8 * j + b) = (bytes.getD j 0).getLsbD b
        ∧ k2.getLsbD (8 * j + b) = (bytes.getD (8 + j) 0).getLsbD b

/-! ### Primitives -/

/-- R66: the formula, the bit law and the three examples of the 64-bit left rotation. -/
def Obligations.RotateMovesBits : Prop :=
  (∀ (x : Word) (r : Nat), 0 < r → r < 64 →
    rotl64 x r = (x <<< r) ||| (x >>> (64 - r))
    ∧ ∀ i < 64, (rotl64 x r).getLsbD i = x.getLsbD ((i + 64 - r) % 64))
  ∧ rotl64 0x8000000000000001 1 = 0x0000000000000003
  ∧ rotl64 0x0123456789abcdef 31 = 0xc4d5e6f78091a2b3
  ∧ rotl64 0x0123456789abcdef 33 = 0x13579bde02468acf

/-- R69 and R70 with the constants of R67 written out: the two word mixes and the values the rules give. -/
def Obligations.WordMixes : Prop :=
  (∀ k : Word, mixK1 k = rotl64 (k * 0x87c37b91114253d5) 31 * 0x4cf5ad432745937f
    ∧ mixK2 k = rotl64 (k * 0x4cf5ad432745937f) 33 * 0x87c37b91114253d5)
  ∧ mixK1 0 = 0 ∧ mixK1 1 = 0x34e09d0b6bdefe38 ∧ mixK1 0xffffffffffffffff = 0x11cc7f70ecdb6e49
  ∧ mixK2 0 = 0 ∧ mixK2 1 = 0x4e26f5539bb7c37e ∧ mixK2 0xffffffffffffffff = 0x4c9a36c55305e8ad

/-- R95: the avalanche mix step by step, and the values the rule gives. -/
def Obligations.Avalanche : Prop :=
  (∀ k : Word,
    let a := k ^^^ (k >>> 33)
    let b := a * 0xff51afd7ed558ccd
    let c := b ^^^ (b >>> 33)
    let d := c * 0xc4ceb9fe1a85ec53
    fmix64 k = d ^^^ (d >>> 33))
  ∧ fmix64 0 = 0 ∧ fmix64 1 = 0xb456bcfc34c2cb2c
  ∧ fmix64 0x8000000000000000 = 0x8f780810af31a493 ∧ fmix64 0xffffffffffffffff = 0x64b5720b4b825f21

/-- R84 with R82 and R83: the accumulator starts at zero; each further byte is sign-extended, shifted by eight bits a place and
combined by exclusive-or; and what sign extension is, bit by bit. The operator and the start value are the spec's own decisions
D11 and D12. -/
def Obligations.TailFoldsSignExtendedBytes : Prop :=
  foldTail [] = 0
  ∧ (∀ (bytes : List Byte) (b : Byte),
      foldTail (bytes ++ [b]) = foldTail bytes ^^^ (sext64 b <<< (8 * bytes.length)))
  ∧ (∀ (b : Byte), ∀ i < 64, (sext64 b).getLsbD i = if i < 8 then b.getLsbD i else b.getLsbD 7)
  ∧ sext64 0x7f = 0x000000000000007f ∧ sext64 0x80 = 0xffffffffffffff80
  ∧ foldTail [0x80, 0x01] = 0xfffffffffffffe80

/-- The order in which tail bytes are folded does not change the accumulator: the spec's own inference in R85 ("[derived: order
independence from rule R83]"), for every order of the bytes with their places. -/
def Obligations.TailFoldOrderIsImmaterial : Prop :=
  ∀ (bytes : List Byte) (places : List (Byte × Nat)), places.Perm bytes.zipIdx →
    places.foldl (fun k p => k ^^^ (sext64 p.1 <<< (8 * p.2))) 0 = foldTail bytes

/-- With every byte below 0x80, sign extension does not show: the accumulators are the little-endian words. The spec's own
inference in R92 ("[derived: from rules R81, R83, R84]"). -/
def Obligations.TailOfSmallBytesIsLittleEndian : Prop :=
  ∀ bytes : List Byte, bytes.length ≤ 15 → (∀ b ∈ bytes, b.toNat < 0x80) →
    tailK1 bytes = le64 (bytes.take 8) ∧ tailK2 bytes = le64 (bytes.drop 8)

/-! ### What each command does -/

/-- R71: NOP completes in every phase and changes nothing, whatever the data of its word. -/
def Obligations.NopHasNoEffect : Prop :=
  ∀ s : State, exec .nop s = .next s ∧ ∀ data : Data, accept (mkCmd 0 0 data) s = .next s

/-- R72: INIT completes in every phase; the whole next state, `RESULT` not written, and the flags and `STATUS` it leaves; its seed
is the low 32 data bits of its word, whatever the others. -/
def Obligations.InitOpensMessage : Prop :=
  ∀ s : State,
    (∀ seed : BitVec 32, ∃ t, exec (.init seed) s = .next t
      ∧ t = { s with h1 := seed.setWidth 64, h2 := seed.setWidth 64, len := 0, cause := .none, phase := .absorb }
      ∧ t.resValid = false ∧ t.err = false ∧ t.status = 0x001)
    ∧ ∀ data : Data, accept (mkCmd 1 0 data) s = exec (.init (data.extractLsb' 0 32)) s

/-- R74 with the constants of R76, in `ABSORB`: the new lanes, written out, `h2` from the NEW `h1`; `LEN + 16`; all else unchanged. -/
def Obligations.BlockMixesLanes : Prop :=
  ∀ (k1 k2 : Word) (s : State), s.phase = .absorb →
    let a := rotl64 (s.h1 ^^^ mixK1 k1) 27 + s.h2
    let h1 := a * 5 + 0x52dce729
    let b := rotl64 (s.h2 ^^^ mixK2 k2) 31 + h1
    let h2 := b * 5 + 0x38495ab5
    exec (.block k1 k2) s = .next { s with h1 := h1, h2 := h2, len := s.len + 16 }

/-- R81 in `ABSORB`, for every well-formed TAIL: the two loops as the rule writes them, from the highest index down; `LEN + tlen`;
`PHASE` to `TAILED`; all else unchanged. A TAIL term of more than 15 bytes is no command (R50). -/
def Obligations.TailMixesLanes : Prop :=
  ∀ (bytes : List Byte) (s : State), s.phase = .absorb → bytes.length ≤ 15 →
    let n := bytes.length
    let k2 := (List.range (n - 8)).reverse.foldl
      (fun k i => k ^^^ (sext64 (bytes.getD (i + 8) 0) <<< (8 * i))) (0 : Word)
    let k1 := (List.range (min n 8)).reverse.foldl
      (fun k i => k ^^^ (sext64 (bytes.getD i 0) <<< (8 * i))) (0 : Word)
    exec (.tail bytes) s = .next { s with
      h1 := if 1 ≤ n then s.h1 ^^^ mixK1 k1 else s.h1
      h2 := if 9 ≤ n then s.h2 ^^^ mixK2 k2 else s.h2
      len := s.len + BitVec.ofNat 64 n
      phase := .tailed }

/-- R90: lanes at and above `tlen` have no effect in any phase, and a TAIL word with `tlen = 0` only moves `PHASE` to `TAILED`, from
where, as from `ABSORB`, FINAL completes. -/
def Obligations.UnusedLanesAndEmptyTail : Prop :=
  (∀ (tlen : BitVec 4) (d d' : Data) (s : State),
    (∀ j < tlen.toNat, byteLane d j = byteLane d' j) → accept (mkCmd 3 tlen d) s = accept (mkCmd 3 tlen d') s)
  ∧ (∀ (d : Data) (s : State), s.phase = .absorb → accept (mkCmd 3 0 d) s = .next { s with phase := .tailed })
  ∧ ∀ (d : Data) (s : State), s.phase = .absorb → ∃ t, accept (mkCmd 4 0 d) s = .next t ∧ t.phase = .done

/-- R94 and R98, in `ABSORB` and in `TAILED`: FINAL completes; the whole next state, step by step as the rule writes it, and `RESULT`,
readable and on `res_data`, is the new `H1`. -/
def Obligations.FinalProducesResult : Prop :=
  ∀ s : State, s.phase = .absorb ∨ s.phase = .tailed →
    let a := s.h1 ^^^ s.len
    let b := s.h2 ^^^ s.len
    let c := a + b
    let d := b + c
    let e := fmix64 c
    let f := fmix64 d
    let h1 := e + f
    let h2 := f + h1
    ∃ t, exec .final s = .next t
      ∧ t = { s with h1 := h1, h2 := h2, result := h1, phase := .done }
      ∧ t.readResult = .ok h1 ∧ t.resData = h1 ∧ t.resValid = true

/-- R106, all of the table: each command in each phase. "ok" is given by the phase it leads to, with no error. -/
def Obligations.LegalityTable : Prop :=
  ∀ (s : State) (seed : BitVec 32) (k1 k2 : Word) (bytes : List Byte),
    exec .nop s = .next s
    ∧ (∃ t, exec (.init seed) s = .next t ∧ t.phase = .absorb)
    ∧ (s.phase = .absorb →
        (∃ t, exec (.block k1 k2) s = .next t ∧ t.phase = .absorb)
        ∧ (∃ t, exec (.tail bytes) s = .next t ∧ t.phase = .tailed)
        ∧ ∃ t, exec .final s = .next t ∧ t.phase = .done)
    ∧ (s.phase = .tailed →
        exec (.block k1 k2) s = .next (s.inError .sequence)
        ∧ exec (.tail bytes) s = .next (s.inError .sequence)
        ∧ ∃ t, exec .final s = .next t ∧ t.phase = .done)
    ∧ (s.phase = .idle ∨ s.phase = .done →
        exec (.block k1 k2) s = .next (s.inError .sequence)
        ∧ exec (.tail bytes) s = .next (s.inError .sequence)
        ∧ exec .final s = .next (s.inError .sequence))
    ∧ (s.phase = .error →
        exec (.block k1 k2) s = .next s ∧ exec (.tail bytes) s = .next s ∧ exec .final s = .next s)

/-- The frame of every command, at every next state `exec` gives: what it leaves unchanged (R71, R72, R73, R80, R93, R107). The
registers a command may write are, for INIT, all but `RESULT`; for BLOCK and TAIL the lanes, `LEN` and, on TAIL, `PHASE`; for FINAL
the lanes, `RESULT`, `PHASE`; on error entry `CAUSE` and `PHASE`. The block has no memory, so there is no byte of it to change. -/
def Obligations.FrameOfEveryCommand : Prop :=
  ∀ (i : Instr) (s t : State), exec i s = .next t →
    t.edges = s.edges ∧ t.portDraw = s.portDraw
    ∧ (i.command = .nop → t = s)
    ∧ (i.command ≠ .final → t.result = s.result)
    ∧ (i.command = .final → t.len = s.len)
    ∧ (i.command = .block → s.phase = .absorb → t.phase = s.phase ∧ t.cause = s.cause)
    ∧ (i.command = .tail → s.phase = .absorb → t.cause = s.cause)
    ∧ (i.command = .final → s.phase = .absorb ∨ s.phase = .tailed → t.cause = s.cause)
    ∧ (t.phase = .error → t = { s with cause := t.cause, phase := .error })

/-- R77 and R91: from any state, INIT, any BLOCKs and one TAIL complete, and `LEN` is 16 a BLOCK plus `tlen`, modulo 2^64; a second
TAIL raises `Error(SEQUENCE)`. -/
def Obligations.LenCountsAbsorbedBytes : Prop :=
  ∀ (seed : BitVec 32) (blocks : List (Word × Word)) (bytes again : List Byte) (s : State), bytes.length ≤ 15 →
    ∃ t u, execAll (.init seed :: blocks.map fun k => .block k.1 k.2) s = .next t
      ∧ t.phase = .absorb ∧ t.len = BitVec.ofNat 64 (16 * blocks.length)
      ∧ exec (.tail bytes) t = .next u
      ∧ u.phase = .tailed ∧ u.len = BitVec.ofNat 64 (16 * blocks.length + bytes.length)
      ∧ exec (.tail again) u = .next (u.inError .sequence)

/-! ### Errors -/

/-- R107: error entry writes `CAUSE` and `PHASE` and nothing else; the flags, `STATUS` and the lost result after it. -/
def Obligations.ErrorEntry : Prop :=
  ∀ (c : Cause) (s : State),
    s.raiseError c = { s with cause := c, phase := .error }
    ∧ (s.raiseError c).err = true ∧ (s.raiseError c).resValid = false
    ∧ (s.raiseError c).readResult = .error .resultHoldsNoValue
    ∧ (s.raiseError .illegal).status = 0x114 ∧ (s.raiseError .sequence).status = 0x214

/-- R105: an accepted word that decodes to `ILLEGAL` raises `Error(ILLEGAL)` in every phase but `ERROR`. -/
def Obligations.IllegalWordRaises : Prop :=
  ∀ (w : Cmd) (r : Reject) (s : State), decode w = .error r → s.phase ≠ .error →
    accept w s = .next { s with cause := .illegal, phase := .error }

/-- R109 (and R110 for its first check): the four checks in their order, the first that fails decides. -/
def Obligations.ErrorPriority : Prop :=
  ∀ (w : Cmd) (s : State),
    (s.phase = .error → (∀ seed, decode w ≠ .ok (.init seed)) → accept w s = .next s)
    ∧ (s.phase ≠ .error → ∀ r, decode w = .error r → accept w s = .next (s.inError .illegal))
    ∧ (∀ i, decode w = .ok i → legality i.command s.phase = .seq → accept w s = .next (s.inError .sequence))
    ∧ ∀ i, decode w = .ok i → legality i.command s.phase = .ok →
        accept w s = exec i s ∧ ∃ t, accept w s = .next t ∧ t.phase ≠ .error

/-- R108: a word that raises an error changes `CAUSE` and `PHASE` only, and no word after it takes effect until INIT. -/
def Obligations.ErrorsArePrecise : Prop :=
  ∀ (w : Cmd) (s t : State), s.phase ≠ .error → accept w s = .next t → t.phase = .error →
    (t = { s with cause := t.cause, phase := .error } ∧ (t.cause = .illegal ∨ t.cause = .sequence))
    ∧ ∀ ws : List Cmd, (∀ v ∈ ws, ∀ seed, decode v ≠ .ok (.init seed)) → acceptAll ws t = .next t

/-- R111: the only ways out of `ERROR` at an edge are reset, to `IDLE`, and an accepted legally encoded INIT, to `ABSORB` with `CAUSE`
cleared and the lanes overwritten; and each of the two does leave it. -/
def Obligations.ErrorIsLeftByInitOrResetOnly : Prop :=
  ∀ (e : Edge) (s t : State), s.phase = .error → clockEdge e s = .next t →
    (t.phase ≠ .error →
      (e.rst = true ∧ t.phase = .idle)
      ∨ (e.accepts = true ∧ ∃ seed, decode e.word = .ok (.init seed)
          ∧ t.phase = .absorb ∧ t.cause = .none ∧ t.h1 = seed.setWidth 64 ∧ t.h2 = seed.setWidth 64 ∧ t.len = 0))
    ∧ (e.rst = true → t.phase = .idle)
    ∧ (e.accepts = true → ∀ seed, decode e.word = .ok (.init seed) → t.phase = .absorb)

/-- R113: whether a command raises an error, and which, depends on the command and the phase alone: no seed, byte, `tlen`, lane or
`LEN` has a part in it. -/
def Obligations.ErrorsDoNotDependOnData : Prop :=
  ∀ (w w' : Cmd) (i i' : Instr) (s s' t t' : State),
    decode w = .ok i → decode w' = .ok i' → i.command = i'.command → s.phase = s'.phase →
    accept w s = .next t → accept w' s' = .next t' →
    t.phase = t'.phase ∧ (s.cause = s'.cause → t.cause = t'.cause)

/-! ### Status, flags and the result -/

/-- R25 with the codes of R20 and R21: the fields of `STATUS`, and its two examples. -/
def Obligations.StatusWord : Prop :=
  (Phase.idle.code = 0 ∧ Phase.absorb.code = 1 ∧ Phase.tailed.code = 2 ∧ Phase.done.code = 3 ∧ Phase.error.code = 4)
  ∧ (Cause.none.code = 0 ∧ Cause.illegal.code = 1 ∧ Cause.sequence.code = 2)
  ∧ ∀ s : State,
    s.status.extractLsb' 0 3 = s.phase.code
    ∧ s.status.getLsbD 3 = decide (s.phase = .done)
    ∧ s.status.getLsbD 4 = decide (s.phase = .error)
    ∧ s.status.extractLsb' 5 3 = 0
    ∧ s.status.extractLsb' 8 4 = s.cause.code
    ∧ (s.phase = .done → s.cause = .none → s.status = 0x00B)
    ∧ (s.phase = .idle → ∀ k1 k2, ∃ t, exec (.block k1 k2) s = .next t ∧ t.status = 0x214)

/-- R22: `RESULT` is written only by FINAL, with the finalized `H1`, and by no other command, error entry or reset; it reads as a
value in `DONE` and has none in any other phase. -/
def Obligations.ResultIsWrittenByFinalOnly : Prop :=
  (∀ (e : Edge) (s t : State), clockEdge e s = .next t → t.result ≠ s.result →
    e.accepts = true ∧ decode e.word = .ok .final ∧ t.phase = .done
    ∧ t.result = (finalize s.h1 s.h2 s.len).1 ∧ t.result = t.h1)
  ∧ ∀ s : State,
      (s.phase = .done → s.readResult = .ok s.result ∧ s.resData = s.result)
      ∧ (s.phase ≠ .done → s.readResult = .error .resultHoldsNoValue)

/-- What R23 and R24 rule out: `RES_VALID` is set by nothing but FINAL and cleared by nothing but INIT, error entry and reset; `ERR` is
set by nothing but error entry and cleared by nothing but INIT and reset. (That these do set and clear them: FinalProducesResult,
InitOpensMessage, ErrorEntry, ResetEdge.) -/
def Obligations.FlagsChangeByTheirRulesOnly : Prop :=
  ∀ (e : Edge) (s t : State), clockEdge e s = .next t →
    (s.resValid = false → t.resValid = true → e.accepts = true ∧ decode e.word = .ok .final)
    ∧ (s.resValid = true → t.resValid = false →
        e.rst = true ∨ (e.accepts = true ∧ ((∃ seed, decode e.word = .ok (.init seed)) ∨ t.err = true)))
    ∧ (s.err = false → t.err = true → t = { s with cause := t.cause, phase := .error })
    ∧ (s.err = true → t.err = false →
        e.rst = true ∨ (e.accepts = true ∧ ∃ seed, decode e.word = .ok (.init seed)))
    ∧ (t.resValid = decide (t.phase = .done)) ∧ (t.err = decide (t.phase = .error))

/-! ### Reset, handshake and the step -/

/-- R123, with the reset state of R30: at an edge with `rst = 1` no command is accepted, `cmd_ready` is 0, and `PHASE`, `CAUSE`, `STATUS`
and the flags are those of reset whatever came before; `RESULT` has no value. (The bits the model gives the four registers that
hold no value are its own choice, assumption log 1: nothing is said of them.) -/
def Obligations.ResetEdge : Prop :=
  (∀ (e : Edge) (s : State), e.rst = true →
    e.accepts = false ∧ e.ready = false
    ∧ ∃ t, clockEdge e s = .next t ∧ t.phase = .idle ∧ t.cause = .none ∧ t.status = 0x000
      ∧ t.resValid = false ∧ t.err = false ∧ t.readResult = .error .resultHoldsNoValue)
  ∧ State.reset.phase = .idle ∧ State.reset.cause = .none ∧ State.reset.status = 0x000

/-- R127: a command is accepted exactly at the edges with `rst = 0`, `cmd_valid = 1` and `cmd_ready = 1`; there the word on the
command signals takes effect; and at an edge with `rst = 0` where one of the other two fails no register changes. (At a reset edge
R123 says what happens: see ResetEdge.) -/
def Obligations.AcceptanceNeedsAllThree : Prop :=
  ∀ (e : Edge) (s : State),
    (e.accepts = true ↔ e.rst = false ∧ e.cmdValid = true ∧ e.ready = true)
    ∧ (e.rst = false → e.ready = e.cmdReady)
    ∧ (e.accepts = true → clockEdge e s = accept (e.cmdData ++ e.cmdTlen ++ e.cmdOp) s)
    ∧ (e.rst = false → e.cmdValid = false ∨ e.ready = false → clockEdge e s = .next s)

/-- When the word at the next edge decodes to an instruction, a step is `exec` of it, on the state with that edge taken off the list
(R127, R133); and `withFetchWord` puts such an edge there. What one step is, how a word is placed and the draw counter are the
model's own: assumption logs 6, 7 and 3. -/
def Obligations.StepRunsDecodedInstruction : Prop :=
  (∀ (s : State) (e : Edge) (rest : List Edge) (i : Instr),
    s.edges = e :: rest → e.accepts = true → decode e.word = .ok i →
    step s = exec i { s with edges := rest, portDraw := s.portDraw + 1 })
  ∧ ∀ (s : State) (nbits w : Nat) (i : Instr), decodeTableWord nbits w = some i →
    step (s.withFetchWord nbits w) = exec i { s with portDraw := s.portDraw + 1 }

/-- From R121 and R133: edges at which nothing happens are no steps, however many; a list of nothing else changes no register. What
one step is (DEDUCED), and that a step with no active edge left answers a next state with the list emptied (DESIGN CHOICE), are the
model's own: assumption log 6. -/
def Obligations.IdleEdgesAreNoSteps : Prop :=
  ∀ (s : State) (idle rest : List Edge), (∀ e ∈ idle, e.isIdle = true) →
    step { s with edges := idle ++ rest } = step { s with edges := rest }
    ∧ step { s with edges := idle } = .next { s with edges := [] }

/-- The duty of R128 and what it buys: a host that holds `cmd_valid` and its word until acceptance has exactly that word accepted by
the next step, after however many edges with `cmd_ready = 0`. What one step is and the draw counter are the model's own: assumption
logs 6 and 3. -/
def Obligations.HeldCommandIsAccepted : Prop :=
  ∀ (w : Cmd) (s : State), holdsUntilAccepted w s.edges = true →
    ∃ rest, step s = accept w { s with edges := rest, portDraw := s.portDraw + 1 }

/-- R134, under the guarantee of R129 as its premise: for a host that keeps offering a stream of commands, each held until its
acceptance (R128), there comes an edge by which exactly its words are accepted, in order, and their effect is complete; a single command
is the stream of one. The clock that never ends is the model's way of saying "after finitely many cycles" (assumption log 5). -/
def Obligations.HeldStreamCompletes : Prop :=
  ∀ (clock : Clock) (ws : List Cmd), readyRisesAgain clock → offersStream ws clock →
    ∃ n, acceptedWords (firstEdges clock n) = ws
      ∧ ∀ s, ∃ t, acceptAll ws s = .next t ∧ runEdges (firstEdges clock n) s = .next t

/-- The same by steps: as many steps as the stream has commands leave the registers that the commands leave, with no edge left over (R133,
R134). What one step is (assumption log 6), the clock (5) and the draw counter (3) are the model's own. -/
def Obligations.HeldStreamTakesOneStepACommand : Prop :=
  ∀ (clock : Clock) (ws : List Cmd), readyRisesAgain clock → offersStream ws clock →
    ∃ n, ∀ s : State, ∃ t, acceptAll ws s = .next t
      ∧ Host.Core.run core ws.length { s with edges := firstEdges clock n }
        = .next { t with edges := [], portDraw := s.portDraw + ws.length }

/-- R44 with R127: with no reset among them, what a list of edges does is the left-to-right composition of the words accepted at
them, whatever the timing. -/
def Obligations.EdgesRunTheAcceptedWords : Prop :=
  ∀ (es : List Edge) (s : State), noReset es = true → runEdges es s = acceptAll (acceptedWords es) s

/-- The step function runs the edges: as many steps as there are edges at which something happens, and one that drops what idle edges
remain, leave the registers that the edges leave one by one, resets among them (R123, R127, R133). That a reset edge is a step
(DEDUCED) and that a last step drops the idle edges (DESIGN CHOICE) are assumption log 6; the draw counter is the model's own field,
assumption log 3. -/
def Obligations.StepsRunTheEdges : Prop :=
  ∀ (es : List Edge) (s : State), ∃ t, runEdges es s = .next t
    ∧ Host.Core.run core ((activeEdges es).length + 1) { s with edges := es }
      = .next { t with edges := [], portDraw := s.portDraw + (activeEdges es).length }

/-- Every step answers a next state: no state, input or operand stops the machine (R14, R113, R122). It rests on two choices of the
model: no command faults on `H1`, `H2` or `LEN`, where R31 and U1 have a model fault (assumption log 2), and with no active edge left
a step answers a next state (assumption log 6). -/
def Obligations.StepAlwaysAnswersNext : Prop :=
  ∀ s : State, ∃ t, step s = .next t

/-! ### Invariants -/

/-- The invariant holds after reset. -/
def Obligations.InvariantAtReset : Prop := State.reset.Inv

/-- Every step keeps it: `CAUSE` is non-zero exactly in `ERROR` (R21); a valid `RESULT` is the finalized `H1` (R98, R99); in `ABSORB`
`LEN` is a whole number of blocks (R77). -/
def Obligations.StepKeepsInvariant : Prop :=
  ∀ s t : State, s.Inv → step s = .next t → t.Inv

/-! ### The whole message -/

/-- The composition of R100 through the pseudo-instruction `HASH` of R64: from any state, for any seed and any message of fewer than
2^64 bytes, `HASH` assembles, its words raise no error, and afterwards `PHASE = DONE`, `RESULT = hash128_x64(m, s)`, `H2` is the
digest's high half and `LEN` the message's length. The spec marks the composition as its own inference ("[derived: from ...]"). -/
def Obligations.HashComputesHash128 : Prop :=
  ∀ (seed : BitVec 32) (m : List Byte) (s : State), m.length < 2 ^ 64 →
    ∃ ws t, Asm.assemble (.hash seed.toNat m) = .ok ws ∧ acceptAll ws s = .next t
      ∧ t.phase = .done ∧ t.cause = .none
      ∧ t.readResult = .ok (hash128 m seed)
      ∧ t.digest = (digestLanes m seed).2 ++ (digestLanes m seed).1
      ∧ t.len = BitVec.ofNat 64 m.length

/-- The last sentence of R100 (the spec's own inference): NOPs anywhere in a stream, and an empty TAIL before FINAL, change nothing. -/
def Obligations.NopsAndEmptyTailChangeNothing : Prop :=
  (∀ (is : List Instr) (s : State), execAll is s = execAll (is.filter fun i => i != .nop) s)
  ∧ ∀ s : State, s.phase = .absorb → execAll [.tail [], .final] s = execAll [.final] s

/-- The empty message (R101, the spec's own inference): it starts from the seed, and its results for seeds 0 and 1. -/
def Obligations.EmptyMessage : Prop :=
  ∀ s : State,
    (∀ seed : BitVec 32, ∃ t, execAll [.init seed, .final] s = .next t
      ∧ t.readResult = .ok (finalize (seed.setWidth 64) (seed.setWidth 64) 0).1)
    ∧ (∃ t, execAll [.init 0, .final] s = .next t ∧ t.readResult = .ok 0)
    ∧ ∃ t, execAll [.init 1, .final] s = .next t ∧ t.readResult = .ok 0x4610abe56eff5cb5

/-- R102 (the spec's own inference): two runs with no reset whose accepted commands, NOPs left out, are the same from an INIT on end
with the same lanes, `LEN`, `STATUS` and `RESULT`, whatever the states they started in, the ignored data bits, the NOPs, the idle edges
and `cmd_ready` were. -/
def Obligations.ResultDependsOnMessageOnly : Prop :=
  ∀ (es es' : List Edge) (s s' t t' : State) (seed : BitVec 32) (rest : List (Option Instr)),
    noReset es = true → noReset es' = true →
    commandsOf es = some (.init seed) :: rest → commandsOf es' = some (.init seed) :: rest →
    runEdges es s = .next t → runEdges es' s' = .next t' →
    t.agreesWith t' ∧ t.h1 = t'.h1 ∧ t.h2 = t'.h2 ∧ t.len = t'.len

/-- What R31 says of registers that hold no value, "No legal command reads `H1`, `H2` or `LEN` before INIT writes them" (the spec's own
inference): from `IDLE` or `ERROR`, whatever values those registers and `RESULT` have, every stream of words ends with the same
`STATUS` and the same readable `RESULT`. So neither rests on the values the model gives those registers at reset (assumption log 1).
Nothing is said of `res_data` outside `DONE`, where the stored bits of `RESULT` may show through the free value (assumption log 3). -/
def Obligations.ResetValuesAreNeverObserved : Prop :=
  ∀ (ws : List Cmd) (s s' t t' : State), s.phase = .idle ∨ s.phase = .error →
    s.phase = s'.phase → s.cause = s'.cause →
    acceptAll ws s = .next t → acceptAll ws s' = .next t' → t.agreesWith t'

/-! ### The assembler -/

/-- R63: what each line assembles to, byte lane by byte lane, its three assembly errors and its example. -/
def Obligations.AssemblyIntoWords : Prop :=
  Asm.assembleLine .nop = .ok (mkCmd 0 0 0) ∧ Asm.assembleLine .final = .ok (mkCmd 4 0 0)
  ∧ (∀ seed : Nat, (seed < 2 ^ 32 → Asm.assembleLine (.init seed) = .ok (mkCmd 1 0 (BitVec.ofNat 128 seed)))
      ∧ (2 ^ 32 ≤ seed → Asm.assembleLine (.init seed) = .error .seedTooLarge))
  ∧ (∀ bytes : List Byte,
      (bytes.length = 16 → ∃ data, Asm.assembleLine (.block bytes) = .ok (mkCmd 2 0 data)
        ∧ ∀ j < 16, byteLane data j = bytes.getD j 0)
      ∧ (bytes.length ≠ 16 → Asm.assembleLine (.block bytes) = .error .blockNotSixteen)
      ∧ (bytes.length ≤ 15 → ∃ data, Asm.assembleLine (.tail bytes) = .ok (mkCmd 3 (BitVec.ofNat 4 bytes.length) data)
        ∧ ∀ j < 16, byteLane data j = bytes.getD j 0)
      ∧ (15 < bytes.length → Asm.assembleLine (.tail bytes) = .error .tailTooLong)
      ∧ (bytes.length = 16 → ∀ op tlen : BitVec 4, ∃ data,
          Asm.assembleLine (.cmd op.toNat tlen.toNat bytes) = .ok (mkCmd op tlen data)
          ∧ ∀ j < 16, byteLane data j = bytes.getD j 0))
  ∧ Asm.assembleLine (.tail [0x68, 0x65, 0x6c, 0x6c, 0x6f]) = .ok 0x00000000000000000000006f6c6c656853

/-- R65: for every word, printing it and assembling the printed text gives back one word with the same `op` and `tlen` that decodes the
same and has the same effect in every state. -/
def Obligations.PrintThenAssemble : Prop :=
  ∀ w : Cmd, ∃ w', Asm.assembleText (Asm.printLine (Asm.disassemble w)) = .ok [w']
    ∧ cmdOp w' = cmdOp w ∧ cmdTlen w' = cmdTlen w
    ∧ decode w' = decode w ∧ ∀ s, accept w' s = accept w s
end

