-- ==== Sys2Proof/Laws/Decode.lean ====
section
/-! SUPPORT. The fields of a command word, and the bits and lanes of packed bytes. -/

namespace Sys2Proof

/-- Where each bit of a command word comes from (R48). -/
theorem mkCmd_getLsbD (op tlen : BitVec 4) (data : Data) (i : Nat) :
    (mkCmd op tlen data).getLsbD i
      = if i < 4 then op.getLsbD i else if i - 4 < 4 then tlen.getLsbD (i - 4) else data.getLsbD (i - 4 - 4) := by
  simp only [mkCmd, BitVec.getLsbD_append]

@[simp] theorem cmdOp_mkCmd (op tlen : BitVec 4) (data : Data) : cmdOp (mkCmd op tlen data) = op := by
  apply BitVec.eq_of_getLsbD_eq
  intro i hi
  simp [cmdOp, mkCmd_getLsbD, hi]

@[simp] theorem cmdTlen_mkCmd (op tlen : BitVec 4) (data : Data) : cmdTlen (mkCmd op tlen data) = tlen := by
  apply BitVec.eq_of_getLsbD_eq
  intro i hi
  simp [cmdTlen, mkCmd_getLsbD, hi]

@[simp] theorem cmdData_mkCmd (op tlen : BitVec 4) (data : Data) : cmdData (mkCmd op tlen data) = data := by
  apply BitVec.eq_of_getLsbD_eq
  intro i hi
  have h1 : ¬ 8 + i < 4 := by omega
  have h2 : ¬ 8 + i - 4 < 4 := by omega
  have h3 : 8 + i - 4 - 4 = i := by omega
  simp only [cmdData, BitVec.getLsbD_extractLsb', mkCmd_getLsbD, h1, h2, h3, hi, if_false, decide_true, Bool.true_and]

/-- Where each bit of BLOCK's data comes from (R53). -/
theorem blockData_getLsbD (k1 k2 : Word) (i : Nat) :
    (blockData k1 k2).getLsbD i = if i < 64 then k1.getLsbD i else k2.getLsbD (i - 64) := by
  simp only [blockData, BitVec.getLsbD_append]

@[simp] theorem k1Of_blockData (k1 k2 : Word) : k1Of (blockData k1 k2) = k1 := by
  apply BitVec.eq_of_getLsbD_eq
  intro i hi
  simp [k1Of, blockData_getLsbD, hi]

@[simp] theorem k2Of_blockData (k1 k2 : Word) : k2Of (blockData k1 k2) = k2 := by
  apply BitVec.eq_of_getLsbD_eq
  intro i hi
  simp [k2Of, blockData_getLsbD, hi]

/-- BLOCK's two operands are all of its data. -/
theorem blockData_fields (d : Data) : blockData (k1Of d) (k2Of d) = d := by
  apply BitVec.eq_of_getLsbD_eq
  intro i hi
  rw [blockData_getLsbD]
  split
  · simp [k1Of, *]
  · have h : 64 + (i - 64) = i := by omega
    simp [k2Of, h]
    omega

@[simp] theorem seedOf_setWidth (seed : BitVec 32) : seedOf (seed.setWidth 128) = seed := by
  apply BitVec.eq_of_getLsbD_eq
  intro i hi
  simp [seedOf, hi]
  omega

/-- A command word is its three fields. -/
theorem mkCmd_fields (w : Cmd) : mkCmd (cmdOp w) (cmdTlen w) (cmdData w) = w := by
  apply BitVec.eq_of_getLsbD_eq
  intro i hi
  simp only [mkCmd_getLsbD, cmdOp, cmdTlen, cmdData, BitVec.getLsbD_extractLsb']
  split
  · simp_all
  · split
    · have h : 4 + (i - 4) = i := by omega
      simp_all
    · have h : 8 + (i - 4 - 4) = i := by omega
      have h' : i - 4 - 4 < 128 := by omega
      simp_all

@[simp] theorem lanes_length (data : Data) (n : Nat) : (lanes data n).length = n := by simp [lanes]

/-- The bits of packed bytes are the bytes' bits, byte 0 lowest. -/
theorem packBytes_getLsbD (bytes : List Byte) (i : Nat) (hi : i < 128) :
    (packBytes bytes).getLsbD i = (bytes.getD (i / 8) 0).getLsbD (i % 8) := by
  induction bytes generalizing i with
  | nil => simp [packBytes]
  | cons b bs ih =>
    simp only [packBytes, BitVec.getLsbD_or, BitVec.getLsbD_shiftLeft, BitVec.getLsbD_setWidth, hi]
    by_cases h : i < 8
    · simp [h, Nat.div_eq_of_lt h, Nat.mod_eq_of_lt h]
    · have e : i / 8 = (i - 8) / 8 + 1 := by omega
      have m : i % 8 = (i - 8) % 8 := by omega
      rw [ih (i - 8) (by omega), e, m]
      have hb : b.getLsbD i = false := BitVec.getLsbD_of_ge _ _ (by omega)
      simp [h, hb]

/-- Lane `j` of packed bytes is byte `j`, zero past the end. -/
theorem byteLane_packBytes (bytes : List Byte) (j : Nat) (hj : j < 16) :
    byteLane (packBytes bytes) j = bytes.getD j 0 := by
  apply BitVec.eq_of_getLsbD_eq
  intro b hb
  simp only [byteLane, BitVec.getLsbD_extractLsb', hb, decide_true, Bool.true_and]
  rw [packBytes_getLsbD _ _ (by omega)]
  congr 1
  · congr 1; omega
  · omega

/-- The lanes of packed bytes are the bytes. -/
theorem lanes_packBytes (bytes : List Byte) (h : bytes.length ≤ 16) :
    lanes (packBytes bytes) bytes.length = bytes := by
  apply List.ext_getElem (by simp)
  intro i h1 h2
  simp only [lanes, List.getElem_map, List.getElem_range]
  rw [byteLane_packBytes _ _ (by omega)]
  simp [h2]

/-! One lemma per opcode: what `decode` is for it. -/

theorem op_cases (x : BitVec 4) : x = 0 ∨ x = 1 ∨ x = 2 ∨ x = 3 ∨ x = 4 ∨ 5 ≤ x.toNat := by
  revert x
  decide

theorem decode_op0 {w : Cmd} (h : cmdOp w = 0) : decode w = needTlenZero w .nop := by simp [decode, h]

theorem decode_op1 {w : Cmd} (h : cmdOp w = 1) : decode w = needTlenZero w (.init (seedOf (cmdData w))) := by
  simp [decode, h]

theorem decode_op2 {w : Cmd} (h : cmdOp w = 2) :
    decode w = needTlenZero w (.block (k1Of (cmdData w)) (k2Of (cmdData w))) := by
  simp [decode, h]

theorem decode_op3 {w : Cmd} (h : cmdOp w = 3) :
    decode w = .ok (.tail (lanes (cmdData w) (cmdTlen w).toNat)) := by
  simp [decode, h]

theorem decode_op4 {w : Cmd} (h : cmdOp w = 4) : decode w = needTlenZero w .final := by simp [decode, h]

theorem decode_reserved {w : Cmd} (h : 5 ≤ (cmdOp w).toNat) : decode w = .error (.reservedOp (cmdOp w)) := by
  unfold decode
  split <;> first | omega | rfl

theorem needTlenZero_ok {w : Cmd} (h : cmdTlen w = 0) (i : Instr) : needTlenZero w i = .ok i := by
  simp [needTlenZero, h]

theorem needTlenZero_error {w : Cmd} (h : cmdTlen w ≠ 0) (i : Instr) :
    needTlenZero w i = .error (.reservedTlen (cmdOp w) (cmdTlen w)) := if_neg h

theorem needTlenZero_eq_ok {w : Cmd} {i j : Instr} (h : needTlenZero w i = .ok j) : cmdTlen w = 0 ∧ i = j := by
  unfold needTlenZero at h
  split at h <;> simp_all

end Sys2Proof
end

