-- ==== Sys2Proof/Laws/Operands.lean ====
section
/-! SUPPORT. The bits of an assembled word, and the shape of a fold by exclusive-or. -/

namespace Sys2Proof.Machine

/-- The bits of `LE64` are the bytes' bits, the first byte lowest (R9). -/
theorem le64_getLsbD (bytes : List Byte) (i : Nat) (hi : i < 64) :
    (le64 bytes).getLsbD i = (bytes.getD (i / 8) 0).getLsbD (i % 8) := by
  induction bytes generalizing i with
  | nil => simp [le64]
  | cons b bs ih =>
    simp only [le64, zext64, BitVec.getLsbD_or, BitVec.getLsbD_shiftLeft, BitVec.getLsbD_setWidth, hi]
    by_cases h : i < 8
    · simp [h, Nat.div_eq_of_lt h, Nat.mod_eq_of_lt h]
    · have e : i / 8 = (i - 8) / 8 + 1 := by omega
      have m : i % 8 = (i - 8) % 8 := by omega
      rw [ih (i - 8) (by omega), e, m]
      have hb : b.getLsbD i = false := BitVec.getLsbD_of_ge _ _ (by omega)
      simp [h, hb]

/-- The low operand of packed bytes is the little-endian word of the first eight (R35, R53). -/
theorem k1Of_packBytes (bytes : List Byte) : k1Of (packBytes bytes) = le64 (bytes.take 8) := by
  apply BitVec.eq_of_getLsbD_eq
  intro i hi
  rw [le64_getLsbD _ _ hi]
  simp only [k1Of, BitVec.getLsbD_extractLsb', hi, decide_true, Bool.true_and, Nat.zero_add]
  rw [packBytes_getLsbD _ _ (by omega)]
  have h8 : i / 8 < 8 := by omega
  simp [h8]

/-- The high operand of packed bytes is the little-endian word of the next eight (R35, R53). -/
theorem k2Of_packBytes (bytes : List Byte) : k2Of (packBytes bytes) = le64 ((bytes.drop 8).take 8) := by
  apply BitVec.eq_of_getLsbD_eq
  intro i hi
  rw [le64_getLsbD _ _ hi]
  simp only [k2Of, BitVec.getLsbD_extractLsb', hi, decide_true, Bool.true_and]
  rw [packBytes_getLsbD _ _ (by omega)]
  have e1 : (64 + i) / 8 = 8 + i / 8 := by omega
  have e2 : (64 + i) % 8 = i % 8 := by omega
  have h8 : i / 8 < 8 := by omega
  simp [h8, e1, e2]

/-- A fold by exclusive-or from `z` is the fold from zero, with `z` added. -/
theorem foldr_xor_init {α : Type} (f : α → Word) (l : List α) (z : Word) :
    l.foldr (fun p k => k ^^^ f p) z = l.foldr (fun p k => k ^^^ f p) 0 ^^^ z := by
  induction l with
  | nil => simp
  | cons a l ih =>
    simp only [List.foldr_cons]
    rw [ih]
    ac_rfl

end Sys2Proof.Machine
end

