-- ==== Sys2Proof/Laws/State.lean ====
section
/-! SUPPORT. What each register write leaves in each field, and what the flags are in each phase.

Each is true by `rfl` once the state is its fields (`cases s; rfl`). Left as bare `rfl` lemmas they would make the kernel compare a
whole written state with `s`, field by field, and so evaluate 64-bit products of unknowns, which does not end. -/

namespace Sys2Proof.Machine.State

@[simp] theorem setLanes_h1 (v : Word × Word) (s : State) : (s.setLanes v).h1 = v.1 := by cases s; rfl
@[simp] theorem setLanes_h2 (v : Word × Word) (s : State) : (s.setLanes v).h2 = v.2 := by cases s; rfl
@[simp] theorem setLanes_len (v : Word × Word) (s : State) : (s.setLanes v).len = s.len := by cases s; rfl
@[simp] theorem setLanes_phase (v : Word × Word) (s : State) : (s.setLanes v).phase = s.phase := by cases s; rfl
@[simp] theorem setLanes_cause (v : Word × Word) (s : State) : (s.setLanes v).cause = s.cause := by cases s; rfl
@[simp] theorem setLanes_result (v : Word × Word) (s : State) : (s.setLanes v).result = s.result := by cases s; rfl
@[simp] theorem setLanes_edges (v : Word × Word) (s : State) : (s.setLanes v).edges = s.edges := by cases s; rfl
@[simp] theorem setLanes_portDraw (v : Word × Word) (s : State) : (s.setLanes v).portDraw = s.portDraw := by cases s; rfl

@[simp] theorem setLen_h1 (n : Word) (s : State) : (s.setLen n).h1 = s.h1 := by cases s; rfl
@[simp] theorem setLen_h2 (n : Word) (s : State) : (s.setLen n).h2 = s.h2 := by cases s; rfl
@[simp] theorem setLen_len (n : Word) (s : State) : (s.setLen n).len = n := by cases s; rfl
@[simp] theorem setLen_phase (n : Word) (s : State) : (s.setLen n).phase = s.phase := by cases s; rfl
@[simp] theorem setLen_cause (n : Word) (s : State) : (s.setLen n).cause = s.cause := by cases s; rfl
@[simp] theorem setLen_result (n : Word) (s : State) : (s.setLen n).result = s.result := by cases s; rfl
@[simp] theorem setLen_edges (n : Word) (s : State) : (s.setLen n).edges = s.edges := by cases s; rfl
@[simp] theorem setLen_portDraw (n : Word) (s : State) : (s.setLen n).portDraw = s.portDraw := by cases s; rfl

@[simp] theorem addLen_h1 (n : Word) (s : State) : (s.addLen n).h1 = s.h1 := by cases s; rfl
@[simp] theorem addLen_h2 (n : Word) (s : State) : (s.addLen n).h2 = s.h2 := by cases s; rfl
@[simp] theorem addLen_len (n : Word) (s : State) : (s.addLen n).len = s.len + n := by cases s; rfl
@[simp] theorem addLen_phase (n : Word) (s : State) : (s.addLen n).phase = s.phase := by cases s; rfl
@[simp] theorem addLen_cause (n : Word) (s : State) : (s.addLen n).cause = s.cause := by cases s; rfl
@[simp] theorem addLen_result (n : Word) (s : State) : (s.addLen n).result = s.result := by cases s; rfl
@[simp] theorem addLen_edges (n : Word) (s : State) : (s.addLen n).edges = s.edges := by cases s; rfl
@[simp] theorem addLen_portDraw (n : Word) (s : State) : (s.addLen n).portDraw = s.portDraw := by cases s; rfl

@[simp] theorem setPhase_h1 (p : Phase) (s : State) : (s.setPhase p).h1 = s.h1 := by cases s; rfl
@[simp] theorem setPhase_h2 (p : Phase) (s : State) : (s.setPhase p).h2 = s.h2 := by cases s; rfl
@[simp] theorem setPhase_len (p : Phase) (s : State) : (s.setPhase p).len = s.len := by cases s; rfl
@[simp] theorem setPhase_phase (p : Phase) (s : State) : (s.setPhase p).phase = p := by cases s; rfl
@[simp] theorem setPhase_cause (p : Phase) (s : State) : (s.setPhase p).cause = s.cause := by cases s; rfl
@[simp] theorem setPhase_result (p : Phase) (s : State) : (s.setPhase p).result = s.result := by cases s; rfl
@[simp] theorem setPhase_edges (p : Phase) (s : State) : (s.setPhase p).edges = s.edges := by cases s; rfl
@[simp] theorem setPhase_portDraw (p : Phase) (s : State) : (s.setPhase p).portDraw = s.portDraw := by cases s; rfl

@[simp] theorem setCause_h1 (c : Cause) (s : State) : (s.setCause c).h1 = s.h1 := by cases s; rfl
@[simp] theorem setCause_h2 (c : Cause) (s : State) : (s.setCause c).h2 = s.h2 := by cases s; rfl
@[simp] theorem setCause_len (c : Cause) (s : State) : (s.setCause c).len = s.len := by cases s; rfl
@[simp] theorem setCause_phase (c : Cause) (s : State) : (s.setCause c).phase = s.phase := by cases s; rfl
@[simp] theorem setCause_cause (c : Cause) (s : State) : (s.setCause c).cause = c := by cases s; rfl
@[simp] theorem setCause_result (c : Cause) (s : State) : (s.setCause c).result = s.result := by cases s; rfl
@[simp] theorem setCause_edges (c : Cause) (s : State) : (s.setCause c).edges = s.edges := by cases s; rfl
@[simp] theorem setCause_portDraw (c : Cause) (s : State) : (s.setCause c).portDraw = s.portDraw := by cases s; rfl

@[simp] theorem setResult_h1 (v : Word) (s : State) : (s.setResult v).h1 = s.h1 := by cases s; rfl
@[simp] theorem setResult_h2 (v : Word) (s : State) : (s.setResult v).h2 = s.h2 := by cases s; rfl
@[simp] theorem setResult_len (v : Word) (s : State) : (s.setResult v).len = s.len := by cases s; rfl
@[simp] theorem setResult_phase (v : Word) (s : State) : (s.setResult v).phase = s.phase := by cases s; rfl
@[simp] theorem setResult_cause (v : Word) (s : State) : (s.setResult v).cause = s.cause := by cases s; rfl
@[simp] theorem setResult_result (v : Word) (s : State) : (s.setResult v).result = v := by cases s; rfl
@[simp] theorem setResult_edges (v : Word) (s : State) : (s.setResult v).edges = s.edges := by cases s; rfl
@[simp] theorem setResult_portDraw (v : Word) (s : State) : (s.setResult v).portDraw = s.portDraw := by cases s; rfl

@[simp] theorem raiseError_h1 (c : Cause) (s : State) : (s.raiseError c).h1 = s.h1 := by cases s; rfl
@[simp] theorem raiseError_h2 (c : Cause) (s : State) : (s.raiseError c).h2 = s.h2 := by cases s; rfl
@[simp] theorem raiseError_len (c : Cause) (s : State) : (s.raiseError c).len = s.len := by cases s; rfl
@[simp] theorem raiseError_phase (c : Cause) (s : State) : (s.raiseError c).phase = .error := by cases s; rfl
@[simp] theorem raiseError_cause (c : Cause) (s : State) : (s.raiseError c).cause = c := by cases s; rfl
@[simp] theorem raiseError_result (c : Cause) (s : State) : (s.raiseError c).result = s.result := by cases s; rfl
@[simp] theorem raiseError_edges (c : Cause) (s : State) : (s.raiseError c).edges = s.edges := by cases s; rfl
@[simp] theorem raiseError_portDraw (c : Cause) (s : State) : (s.raiseError c).portDraw = s.portDraw := by cases s; rfl

@[simp] theorem resetEdge_h1 (s : State) : s.resetEdge.h1 = 0 := by cases s; rfl
@[simp] theorem resetEdge_h2 (s : State) : s.resetEdge.h2 = 0 := by cases s; rfl
@[simp] theorem resetEdge_len (s : State) : s.resetEdge.len = 0 := by cases s; rfl
@[simp] theorem resetEdge_phase (s : State) : s.resetEdge.phase = .idle := by cases s; rfl
@[simp] theorem resetEdge_cause (s : State) : s.resetEdge.cause = .none := by cases s; rfl
@[simp] theorem resetEdge_result (s : State) : s.resetEdge.result = s.result := by cases s; rfl
@[simp] theorem resetEdge_edges (s : State) : s.resetEdge.edges = s.edges := by cases s; rfl
@[simp] theorem resetEdge_portDraw (s : State) : s.resetEdge.portDraw = s.portDraw := by cases s; rfl

theorem resValid_iff (s : State) : s.resValid = true ↔ s.phase = .done := by simp [resValid]

theorem err_iff (s : State) : s.err = true ↔ s.phase = .error := by simp [err]

theorem readResult_of_done {s : State} (h : s.phase = .done) : s.readResult = .ok s.result := by
  simp [readResult, resValid, h]

theorem readResult_of_not_done {s : State} (h : s.phase ≠ .done) : s.readResult = .error .resultHoldsNoValue := by
  simp [readResult, resValid, h]

theorem resData_of_done {s : State} (h : s.phase = .done) : s.resData = s.result := by
  simp [resData, resValid, h]

/-- `STATUS` is a function of `PHASE` and `CAUSE` alone. -/
theorem status_congr {s t : State} (hp : s.phase = t.phase) (hc : s.cause = t.cause) : s.status = t.status := by
  simp [status, err, resValid, hp, hc]

end Sys2Proof.Machine.State
end

