-- ==== Sys2Proof/Laws/Ops.lean ====
section
/-! SUPPORT. For each shared operation, once, everything it can do. -/

namespace Sys2Proof.Machine

variable {s t : State}

/-- The three things the gate can do. -/
theorem gated_cases {c : Command} {rule : State → State} (h : gated c rule s = .next t) :
    (legality c s.phase = .ok ∧ t = rule s)
    ∨ (legality c s.phase = .seq ∧ t = s.raiseError .sequence)
    ∨ (legality c s.phase = .ignored ∧ t = s) := by
  unfold gated at h
  split at h <;> simp_all

/-- The gate always answers a next state. -/
theorem gated_next (c : Command) (rule : State → State) (s : State) : ∃ t, gated c rule s = .next t := by
  unfold gated
  split <;> exact ⟨_, rfl⟩

theorem gated_of_ok {c : Command} {rule : State → State} (h : legality c s.phase = .ok) :
    gated c rule s = .next (rule s) := by
  simp [gated, h]

theorem gated_of_seq {c : Command} {rule : State → State} (h : legality c s.phase = .seq) :
    gated c rule s = .next (s.raiseError .sequence) := by
  simp [gated, h]

theorem gated_of_ignored {c : Command} {rule : State → State} (h : legality c s.phase = .ignored) :
    gated c rule s = .next s := by
  simp [gated, h]

/-- A command out of sequence stands in no error. -/
theorem not_error_of_seq {c : Command} {p : Phase} (h : legality c p = .seq) : p ≠ .error := by
  rintro rfl
  cases c <;> simp [legality] at h

/-- Only in `ERROR` is a command ignored. -/
theorem error_of_ignored {c : Command} {p : Phase} (h : legality c p = .ignored) : p = .error := by
  cases c <;> cases p <;> simp [legality] at h ⊢

/-- In `ERROR` every command but INIT is ignored (R110). -/
theorem legality_error {c : Command} (h : c ≠ .init) : legality c .error = .ignored := by
  cases c <;> simp_all [legality]

/-- The two things a word that decodes to `ILLEGAL` can do. -/
theorem acceptIllegal_cases (h : acceptIllegal s = .next t) :
    (s.phase = .error ∧ t = s) ∨ (s.phase ≠ .error ∧ t = s.raiseError .illegal) := by
  unfold acceptIllegal at h
  split at h <;> simp_all

theorem acceptIllegal_next (s : State) : ∃ t, acceptIllegal s = .next t := by
  unfold acceptIllegal
  split <;> exact ⟨_, rfl⟩

/-- The rule of an instruction: what it does where it is legal. -/
def ruleOf : Instr → State → State
  | .nop => id
  | .init seed => openMessage seed
  | .block k1 k2 => absorbBlock k1 k2
  | .tail bytes => absorbTail bytes
  | .final => finishMessage

/-- Every command is its rule behind the gate. -/
theorem exec_eq_gated (i : Instr) (s : State) : exec i s = gated i.command (ruleOf i) s := by
  cases i <;> rfl

/-- Everything `exec` can do. -/
theorem exec_cases {i : Instr} (h : exec i s = .next t) :
    (legality i.command s.phase = .ok ∧ t = ruleOf i s)
    ∨ (legality i.command s.phase = .seq ∧ t = s.raiseError .sequence)
    ∨ (legality i.command s.phase = .ignored ∧ t = s) :=
  gated_cases (exec_eq_gated i s ▸ h)

theorem exec_next (i : Instr) (s : State) : ∃ t, exec i s = .next t := by
  simpa [exec_eq_gated] using gated_next i.command (ruleOf i) s

theorem accept_of_decode {w : Cmd} {i : Instr} (h : decode w = .ok i) (s : State) : accept w s = exec i s := by
  simp [accept, h]

theorem accept_of_reject {w : Cmd} {r : Reject} (h : decode w = .error r) (s : State) :
    accept w s = acceptIllegal s := by
  simp [accept, h]

theorem accept_next (w : Cmd) (s : State) : ∃ t, accept w s = .next t := by
  unfold accept
  split
  · exact exec_next _ s
  · exact acceptIllegal_next s

/-- Everything an accepted word can do. -/
theorem accept_cases {w : Cmd} (h : accept w s = .next t) :
    (∃ i, decode w = .ok i ∧ exec i s = .next t)
    ∨ ∃ r, decode w = .error r ∧ acceptIllegal s = .next t := by
  unfold accept at h
  split at h
  · exact .inl ⟨_, ‹_›, h⟩
  · exact .inr ⟨_, ‹_›, h⟩

/-- Everything one clock edge can do. -/
theorem clockEdge_cases {e : Edge} (h : clockEdge e s = .next t) :
    (e.rst = true ∧ t = s.resetEdge)
    ∨ (e.rst = false ∧ e.accepts = true ∧ accept e.word s = .next t)
    ∨ (e.rst = false ∧ e.accepts = false ∧ t = s) := by
  unfold clockEdge at h
  split at h
  · simp_all
  · split at h <;> simp_all

theorem clockEdge_next (e : Edge) (s : State) : ∃ t, clockEdge e s = .next t := by
  unfold clockEdge
  split
  · exact ⟨_, rfl⟩
  · split
    · exact accept_next _ s
    · exact ⟨_, rfl⟩

/-- An edge at which nothing happens changes nothing (R127). -/
theorem clockEdge_of_idle {e : Edge} (h : e.isIdle = true) (s : State) : clockEdge e s = .next s := by
  simp only [Edge.isIdle, Bool.and_eq_true, Bool.not_eq_true'] at h
  simp [clockEdge, h.1, h.2]

@[simp] theorem andThen_next (s : State) (f : State → Result) : andThen (.next s) f = f s := rfl

theorem andThen_eq_next {r : Result} {f : State → Result} (h : andThen r f = .next t) :
    ∃ u, r = .next u ∧ f u = .next t := by
  cases r <;> simp_all [andThen]

/-- Everything a step can do. -/
theorem step_cases (h : step s = .next t) :
    (s.edges.dropWhile Edge.isIdle = [] ∧ t = { s with edges := [] })
    ∨ ∃ e rest, s.edges.dropWhile Edge.isIdle = e :: rest
        ∧ clockEdge e { s with edges := rest, portDraw := s.portDraw + 1 } = .next t := by
  unfold step at h
  split at h
  · simp_all
  · exact .inr ⟨_, _, ‹_›, h⟩

end Sys2Proof.Machine
end

