-- ==== Sys2Proof/Laws/PerInstr.lean ====
section
/-! SUPPORT. A fact about every instruction, one lemma per constructor. -/

/-- The encoding of an instruction carries the opcode and the `tlen` that spec/30_encoding.md R49 and R50 give its command. -/
def Sys2Proof.Laws.EncodedHeader.Statement (i : Sys2Proof.Instr) : Prop :=
  Sys2Proof.cmdOp (Sys2Proof.encode i)
      = (match i.command with | .nop => 0 | .init => 1 | .block => 2 | .tail => 3 | .final => 4)
    ∧ Sys2Proof.cmdTlen (Sys2Proof.encode i)
      = (match i with | .tail bytes => BitVec.ofNat 4 bytes.length | _ => 0)

namespace Sys2Proof.Laws.EncodedHeader

theorem nop : Statement .nop := by simp [Statement, encode, Instr.command]

theorem init (seed : BitVec 32) : Statement (.init seed) := by simp [Statement, encode, Instr.command]

theorem block (k1 k2 : Word) : Statement (.block k1 k2) := by simp [Statement, encode, Instr.command]

theorem tail (bytes : List Byte) : Statement (.tail bytes) := by simp [Statement, encode, Instr.command]

theorem final : Statement .final := by simp [Statement, encode, Instr.command]

end Sys2Proof.Laws.EncodedHeader
end

