-- ==== Sys2Proof/Laws/Progress.lean ====
section
/-! SUPPORT. The first edges of a clock, what is accepted at them, and that every list of edges begins a clock with the guarantee. -/

namespace Sys2Proof.Machine

@[simp] theorem firstEdges_zero (clock : Clock) : firstEdges clock 0 = [] := rfl

@[simp] theorem firstEdges_length (clock : Clock) (n : Nat) : (firstEdges clock n).length = n := by simp [firstEdges]

/-- One more edge comes last. -/
theorem firstEdges_succ (clock : Clock) (n : Nat) : firstEdges clock (n + 1) = firstEdges clock n ++ [clock n] := by
  simp [firstEdges, List.range_succ]

/-- The first edges are some first edges and then those of the clock from there on. -/
theorem firstEdges_add (clock : Clock) (m n : Nat) :
    firstEdges clock (m + n) = firstEdges clock m ++ firstEdges (fun c => clock (m + c)) n := by
  simp [firstEdges, List.range_add]

@[simp] theorem acceptedWords_nil : acceptedWords [] = [] := rfl

theorem acceptedWords_append (es fs : List Edge) : acceptedWords (es ++ fs) = acceptedWords es ++ acceptedWords fs := by
  simp [acceptedWords]

@[simp] theorem acceptedBefore_zero (clock : Clock) : acceptedBefore clock 0 = 0 := rfl

/-- An edge counts one command if it accepts and none if it does not. -/
theorem acceptedBefore_succ (clock : Clock) (n : Nat) :
    acceptedBefore clock (n + 1) = acceptedBefore clock n + if (clock n).accepts then 1 else 0 := by
  cases h : (clock n).accepts <;> simp [acceptedBefore, firstEdges_succ, acceptedWords, h]

/-- What was accepted before an edge stays counted at every later one. -/
theorem acceptedBefore_add (clock : Clock) (m n : Nat) :
    acceptedBefore clock (m + n) = acceptedBefore clock m + acceptedBefore (fun c => clock (m + c)) n := by
  simp [acceptedBefore, firstEdges_add, acceptedWords_append]

/-- The clock whose first edges are those of a list and that afterwards offers a ready block nothing. -/
def clockFrom (es : List Edge) : Clock := fun n => es.getD n { Edge.accepting 0 with cmdValid := false }

/-- Every finite list of edges begins a clock with the guarantee of R129: it excludes none of the lists State can hold. -/
theorem every_list_begins_a_clock (es : List Edge) :
    readyRisesAgain (clockFrom es) ∧ firstEdges (clockFrom es) es.length = es := by
  refine ⟨fun n => ⟨max n es.length, le_max_left _ _, .inr ?_⟩, ?_⟩
  · simp [clockFrom, Edge.accepting, Edge.ready]
  · apply List.ext_getElem (by simp)
    intro i h1 h2
    simp [firstEdges, clockFrom, h2]

end Sys2Proof.Machine
end

