-- ==== Sys2Proof/Laws/Rules.lean ====
section
/-! SUPPORT. What the rule of each command leaves in each field, and where `exec` runs the rule: cite these instead of unfolding
a meaning. (Never close such a goal by `rfl`: Lean then compares a rule's state with `s` field by field and evaluates 64-bit products of
unknowns, which does not end. Use these lemmas, `simp` and `State.ext_fields`.) -/

namespace Sys2Proof.Machine

@[simp] theorem openMessage_h1 (seed : BitVec 32) (s : State) :
    (openMessage seed s).h1 = zext64 seed := by
  simp [openMessage]

@[simp] theorem openMessage_h2 (seed : BitVec 32) (s : State) :
    (openMessage seed s).h2 = zext64 seed := by
  simp [openMessage]

@[simp] theorem openMessage_len (seed : BitVec 32) (s : State) :
    (openMessage seed s).len = 0 := by
  simp [openMessage]

@[simp] theorem openMessage_phase (seed : BitVec 32) (s : State) :
    (openMessage seed s).phase = .absorb := by
  simp [openMessage]

@[simp] theorem openMessage_cause (seed : BitVec 32) (s : State) :
    (openMessage seed s).cause = .none := by
  simp [openMessage]

@[simp] theorem openMessage_result (seed : BitVec 32) (s : State) :
    (openMessage seed s).result = s.result := by
  simp [openMessage]

@[simp] theorem openMessage_edges (seed : BitVec 32) (s : State) :
    (openMessage seed s).edges = s.edges := by
  simp [openMessage]

@[simp] theorem openMessage_portDraw (seed : BitVec 32) (s : State) :
    (openMessage seed s).portDraw = s.portDraw := by
  simp [openMessage]

@[simp] theorem absorbBlock_h1 (k1 k2 : Word) (s : State) :
    (absorbBlock k1 k2 s).h1 = (blockMix s.h1 s.h2 k1 k2).1 := by
  simp [absorbBlock]

@[simp] theorem absorbBlock_h2 (k1 k2 : Word) (s : State) :
    (absorbBlock k1 k2 s).h2 = (blockMix s.h1 s.h2 k1 k2).2 := by
  simp [absorbBlock]

@[simp] theorem absorbBlock_len (k1 k2 : Word) (s : State) :
    (absorbBlock k1 k2 s).len = s.len + BitVec.ofNat 64 Config.blockBytes := by
  simp [absorbBlock]

@[simp] theorem absorbBlock_phase (k1 k2 : Word) (s : State) :
    (absorbBlock k1 k2 s).phase = s.phase := by
  simp [absorbBlock]

@[simp] theorem absorbBlock_cause (k1 k2 : Word) (s : State) :
    (absorbBlock k1 k2 s).cause = s.cause := by
  simp [absorbBlock]

@[simp] theorem absorbBlock_result (k1 k2 : Word) (s : State) :
    (absorbBlock k1 k2 s).result = s.result := by
  simp [absorbBlock]

@[simp] theorem absorbBlock_edges (k1 k2 : Word) (s : State) :
    (absorbBlock k1 k2 s).edges = s.edges := by
  simp [absorbBlock]

@[simp] theorem absorbBlock_portDraw (k1 k2 : Word) (s : State) :
    (absorbBlock k1 k2 s).portDraw = s.portDraw := by
  simp [absorbBlock]

@[simp] theorem absorbTail_h1 (bytes : List Byte) (s : State) :
    (absorbTail bytes s).h1 = (tailMix s.h1 s.h2 bytes).1 := by
  simp [absorbTail]

@[simp] theorem absorbTail_h2 (bytes : List Byte) (s : State) :
    (absorbTail bytes s).h2 = (tailMix s.h1 s.h2 bytes).2 := by
  simp [absorbTail]

@[simp] theorem absorbTail_len (bytes : List Byte) (s : State) :
    (absorbTail bytes s).len = s.len + BitVec.ofNat 64 bytes.length := by
  simp [absorbTail]

@[simp] theorem absorbTail_phase (bytes : List Byte) (s : State) :
    (absorbTail bytes s).phase = .tailed := by
  simp [absorbTail]

@[simp] theorem absorbTail_cause (bytes : List Byte) (s : State) :
    (absorbTail bytes s).cause = s.cause := by
  simp [absorbTail]

@[simp] theorem absorbTail_result (bytes : List Byte) (s : State) :
    (absorbTail bytes s).result = s.result := by
  simp [absorbTail]

@[simp] theorem absorbTail_edges (bytes : List Byte) (s : State) :
    (absorbTail bytes s).edges = s.edges := by
  simp [absorbTail]

@[simp] theorem absorbTail_portDraw (bytes : List Byte) (s : State) :
    (absorbTail bytes s).portDraw = s.portDraw := by
  simp [absorbTail]

@[simp] theorem finishMessage_h1 (s : State) :
    (finishMessage s).h1 = (finalize s.h1 s.h2 s.len).1 := by
  simp [finishMessage]

@[simp] theorem finishMessage_h2 (s : State) :
    (finishMessage s).h2 = (finalize s.h1 s.h2 s.len).2 := by
  simp [finishMessage]

@[simp] theorem finishMessage_len (s : State) :
    (finishMessage s).len = s.len := by
  simp [finishMessage]

@[simp] theorem finishMessage_phase (s : State) :
    (finishMessage s).phase = .done := by
  simp [finishMessage]

@[simp] theorem finishMessage_cause (s : State) :
    (finishMessage s).cause = s.cause := by
  simp [finishMessage]

@[simp] theorem finishMessage_result (s : State) :
    (finishMessage s).result = (finalize s.h1 s.h2 s.len).1 := by
  simp [finishMessage]

@[simp] theorem finishMessage_edges (s : State) :
    (finishMessage s).edges = s.edges := by
  simp [finishMessage]

@[simp] theorem finishMessage_portDraw (s : State) :
    (finishMessage s).portDraw = s.portDraw := by
  simp [finishMessage]

/-- A state is its fields: two states with the same fields are equal. -/
theorem State.ext_fields {s t : State} (h1 : s.h1 = t.h1) (h2 : s.h2 = t.h2) (hl : s.len = t.len) (hp : s.phase = t.phase)
    (hc : s.cause = t.cause) (hr : s.result = t.result) (he : s.edges = t.edges) (hd : s.portDraw = t.portDraw) : s = t := by
  cases s
  cases t
  simp_all

/-! Each rule, and error entry, as the whole state it leaves. -/

theorem openMessage_eq (seed : BitVec 32) (s : State) :
    openMessage seed s
      = { s with h1 := seed.setWidth 64, h2 := seed.setWidth 64, len := 0, cause := .none, phase := .absorb } := by
  apply State.ext_fields <;> simp [zext64]

theorem absorbBlock_eq (k1 k2 : Word) (s : State) :
    absorbBlock k1 k2 s
      = { s with h1 := (blockMix s.h1 s.h2 k1 k2).1, h2 := (blockMix s.h1 s.h2 k1 k2).2, len := s.len + 16 } := by
  apply State.ext_fields <;> simp [Config.blockBytes]

theorem absorbTail_eq (bytes : List Byte) (s : State) :
    absorbTail bytes s
      = { s with h1 := (tailMix s.h1 s.h2 bytes).1, h2 := (tailMix s.h1 s.h2 bytes).2
                 len := s.len + BitVec.ofNat 64 bytes.length, phase := .tailed } := by
  apply State.ext_fields <;> simp

theorem finishMessage_eq (s : State) :
    finishMessage s
      = { s with h1 := (finalize s.h1 s.h2 s.len).1, h2 := (finalize s.h1 s.h2 s.len).2
                 result := (finalize s.h1 s.h2 s.len).1, phase := .done } := by
  apply State.ext_fields <;> simp

theorem raiseError_eq (c : Cause) (s : State) : s.raiseError c = { s with cause := c, phase := .error } := by
  apply State.ext_fields <;> simp

theorem exec_init (seed : BitVec 32) (s : State) : exec (.init seed) s = .next (openMessage seed s) :=
  (exec_eq_gated _ s).trans (gated_of_ok rfl)

theorem exec_block_of_absorb {s : State} (h : s.phase = .absorb) (k1 k2 : Word) :
    exec (.block k1 k2) s = .next (absorbBlock k1 k2 s) :=
  (exec_eq_gated _ s).trans (gated_of_ok (by rw [h]; rfl))

theorem exec_tail_of_absorb {s : State} (h : s.phase = .absorb) (bytes : List Byte) :
    exec (.tail bytes) s = .next (absorbTail bytes s) :=
  (exec_eq_gated _ s).trans (gated_of_ok (by rw [h]; rfl))

theorem exec_final_of_open {s : State} (h : s.phase = .absorb ∨ s.phase = .tailed) :
    exec .final s = .next (finishMessage s) :=
  (exec_eq_gated _ s).trans (gated_of_ok (by rcases h with h | h <;> rw [h] <;> rfl))

/-- What the new lanes of BLOCK are, the constants written out (R74, R76). -/
theorem blockMix_eq (h1 h2 k1 k2 : Word) :
    blockMix h1 h2 k1 k2
      = ((rotl64 (h1 ^^^ mixK1 k1) 27 + h2) * 5 + 0x52dce729,
         (rotl64 (h2 ^^^ mixK2 k2) 31 + ((rotl64 (h1 ^^^ mixK1 k1) 27 + h2) * 5 + 0x52dce729)) * 5 + 0x38495ab5) := by
  simp only [blockMix, blockH1, blockH2]

/-- What the final lanes are, step by step (R94). -/
theorem finalize_eq (h1 h2 len : Word) :
    finalize h1 h2 len
      = (fmix64 ((h1 ^^^ len) + (h2 ^^^ len)) + fmix64 ((h2 ^^^ len) + ((h1 ^^^ len) + (h2 ^^^ len))),
         fmix64 ((h2 ^^^ len) + ((h1 ^^^ len) + (h2 ^^^ len)))
          + (fmix64 ((h1 ^^^ len) + (h2 ^^^ len)) + fmix64 ((h2 ^^^ len) + ((h1 ^^^ len) + (h2 ^^^ len))))) := by
  simp only [finalize, crossAdd]

/-- An empty tail mixes nothing (R90). -/
@[simp] theorem tailMix_nil (h1 h2 : Word) : tailMix h1 h2 [] = (h1, h2) := by
  simp [tailMix]

/-- Up to eight tail bytes leave `h2` (R86). -/
theorem tailMix_snd_of_le {bytes : List Byte} (h : bytes.length ≤ 8) (h1 h2 : Word) : (tailMix h1 h2 bytes).2 = h2 := by
  have h9 : ¬ 9 ≤ bytes.length := by omega
  simp [tailMix, h9]

end Sys2Proof.Machine
end

