-- ==== Sys2Proof/Laws/Step.lean ====
section
/-! SUPPORT. Streams of words and of edges, a step at an accepting edge, and the host's run one step at a time. -/

namespace Sys2Proof.Machine

/-- A stream in two parts is the one part and then the other (R44). -/
theorem acceptAll_append (ws vs : List Cmd) (s : State) :
    acceptAll (ws ++ vs) s = andThen (acceptAll ws s) (acceptAll vs) := by
  induction ws generalizing s with
  | nil => rfl
  | cons w ws ih =>
    simp only [List.cons_append, acceptAll]
    cases accept w s with
    | next u => exact ih u
    | fault r => rfl
    | refused r => rfl

theorem acceptAll_next (ws : List Cmd) (s : State) : ∃ t, acceptAll ws s = .next t := by
  induction ws generalizing s with
  | nil => exact ⟨s, rfl⟩
  | cons w ws ih =>
    obtain ⟨u, hu⟩ := accept_next w s
    obtain ⟨t, ht⟩ := ih u
    exact ⟨t, by rw [acceptAll, hu, andThen_next, ht]⟩

theorem runEdges_next (es : List Edge) (s : State) : ∃ t, runEdges es s = .next t := by
  induction es generalizing s with
  | nil => exact ⟨s, rfl⟩
  | cons e es ih =>
    obtain ⟨u, hu⟩ := clockEdge_next e s
    obtain ⟨t, ht⟩ := ih u
    exact ⟨t, by rw [runEdges, hu, andThen_next, ht]⟩

/-- The word on the signals of the edge that offers `w` is `w` (R127). -/
@[simp] theorem accepting_word (w : Cmd) : (Edge.accepting w).word = w := by
  simp only [Edge.word, Edge.accepting]
  exact mkCmd_fields w

theorem rst_of_accepts {e : Edge} (h : e.accepts = true) : e.rst = false := by
  simp only [Edge.accepts, Bool.and_eq_true, Bool.not_eq_true'] at h
  exact h.1.1

/-- A step at a state whose next active edge is known is that edge's effect. -/
theorem step_of_dropWhile {s : State} {e : Edge} {rest : List Edge} (h : s.edges.dropWhile Edge.isIdle = e :: rest) :
    step s = clockEdge e { s with edges := rest, portDraw := s.portDraw + 1 } := by
  simp [step, h]

/-- One step of the host's run. -/
theorem run_succ {s t : State} (h : step s = .next t) (n : Nat) :
    Host.Core.run core (n + 1) s = Host.Core.run core n t := by
  simp only [Host.Core.run]
  rw [show core.step s = .next t from h]

end Sys2Proof.Machine
end

