-- ==== Sys2Proof/Tests/Slice0.lean ====
section
/-! SUPPORT. Tests. Expected values are those of spec/95_test_vectors.md, by the id each comment names, or of the rule it names; none
was taken from the model. Then, for every statement that has hypotheses, a witness that meets them. -/

namespace Sys2Proof.Tests

open Sys2Proof.Machine

/-! ### Helpers -/

/-- The outcome is a next state with this property. -/
def nextSat (r : Result) (p : State → Bool) : Bool :=
  match r with
  | .next s => p s
  | .fault _ => false
  | .refused _ => false

/-- A state with a message open. -/
def absorbing (h1 h2 len : Word) : State := { State.reset with h1 := h1, h2 := h2, len := len, phase := .absorb }

/-- The reset state in another phase. -/
def inPhase (p : Phase) : State := { State.reset with phase := p }

/-- The state after an error. -/
def failed (c : Cause) : State := { State.reset with phase := .error, cause := c }

/-- The lanes, and nothing else. -/
def lanesAre (h1 h2 : Word) (s : State) : Bool := s.h1 == h1 && s.h2 == h2

/-- An edge at which nothing happens: a command offered to a block that is not ready. -/
def stalled (w : Cmd) : Edge := { Edge.accepting w with cmdReady := false }

/-- An edge with `rst = 1`, a command offered all the same. -/
def resetting : Edge := { Edge.accepting 0x02 with rst := true }

/-! ### WellFormed: the one check, and its boundary (R50, R63) -/

theorem test_wellFormed_refuses_long_tail : (Instr.tail (List.replicate 16 0)).wellFormed = false := by decide

theorem test_wellFormed_takes_fifteen : (Instr.tail (List.replicate 15 0)).wellFormed = true := by decide

/-! ### Decode: words written out from the encoding (R48, R55), with set bits where the command ignores them (R59) -/

theorem test_decode_nop : decode 0xffffffffffffffffffffffffffffffff00 = .ok .nop := by decide

/-- V-I4: seed 1, the upper data bits set. -/
theorem test_decode_init : decode 0xffffffffffffffffffffffff0000000101 = .ok (.init 1) := by decide

/-- V-C5. -/
theorem test_decode_block :
    decode 0x0f0e0d0c0b0a0908070605040302010002 = .ok (.block 0x0706050403020100 0x0f0e0d0c0b0a0908) := by decide

/-- V-C6 with a byte in the first lane past `tlen`. -/
theorem test_decode_tail : decode 0x0000000000000000_0000ff6f6c6c656853 = .ok (.tail [0x68, 0x65, 0x6c, 0x6c, 0x6f]) := by
  decide

theorem test_decode_final : decode 0xffffffffffffffffffffffffffffffff04 = .ok .final := by decide

/-- V-C10, V-C11 and V-C12. -/
theorem test_decode_rejects_by_name :
    decode 0x0f0e0d0c0b0a0908070605040302010012 = .error (.reservedTlen 2 1)
    ∧ decode 0x05 = .error (.reservedOp 5) ∧ decode 0xff = .error (.reservedOp 0xf) := by decide

/-- V-C4 and V-C6. -/
theorem test_encode :
    encode (.init 0xffffffff) = 0x000000000000000000000000ffffffff01
    ∧ encode (.tail [0x68, 0x65, 0x6c, 0x6c, 0x6f]) = 0x00000000000000000000006f6c6c656853 := by decide

/-- Every row of spec/opcode_table.json, its fixed bits and zeros, runs as the first step after reset. -/
theorem test_first_step_after_reset :
    nextSat (step (State.reset.withFetchWord 136 0x00)) (fun s => s.status == 0x000)
    ∧ nextSat (step (State.reset.withFetchWord 136 0x01)) (fun s => s.status == 0x001)
    ∧ nextSat (step (State.reset.withFetchWord 136 0x02)) (fun s => s.status == 0x214)
    ∧ nextSat (step (State.reset.withFetchWord 136 0x03)) (fun s => s.status == 0x214)
    ∧ nextSat (step (State.reset.withFetchWord 136 0x04)) (fun s => s.status == 0x214) := by decide

/-! ### Meanings -/

/-- R71: "a NOP in `ERROR` leaves `CAUSE` unchanged". -/
theorem test_nop_in_error : nextSat (exec .nop (failed .illegal)) (fun s => s.status == 0x114) := by decide

/-- V-I3: not sign-extended. -/
theorem test_init_all_ones_seed :
    nextSat (exec (.init 0xffffffff) State.reset) (lanesAre 0x00000000ffffffff 0x00000000ffffffff) := by decide

/-- V-I5: recovery. -/
theorem test_init_recovers : nextSat (exec (.init 3) (failed .sequence)) (fun s => s.status == 0x001 && s.h1 == 3) := by
  decide

/-- V-B4: both lanes and both words distinct. -/
theorem test_block_bytes :
    nextSat (exec (.block 0x0706050403020100 0x0f0e0d0c0b0a0908) (absorbing 1 1 0))
      (lanesAre 0xdcac505ecdc458e4 0x72927c4a2a440446) := by decide

/-- V-B6: no byte of a block is sign-extended; `LEN` counts 16. -/
theorem test_block_all_ones :
    nextSat (exec (.block 0xffffffffffffffff 0xffffffffffffffff) (absorbing 1 1 16))
      (fun s => lanesAre 0xa502493b95a4db15 0x889a33d8e4032b08 s && s.len == 32) := by decide

/-- V-T7: tail byte index 8 feeds `k2` at shift 0 (C1). -/
theorem test_tail_byte_eight :
    nextSat (exec (.tail [0, 0, 0, 0, 0, 0, 0, 0, 0x80]) (absorbing 0 0 0)) (lanesAre 0 0xf82f926d71c127b8) := by decide

/-- V-T8: fifteen bytes with bit 7 set. -/
theorem test_tail_fifteen :
    nextSat (exec (.tail [0xf1, 0xf2, 0xf3, 0xf4, 0xf5, 0xf6, 0xf7, 0xf8, 0xf9, 0xfa, 0xfb, 0xfc, 0xfd, 0xfe, 0xff])
        (absorbing 0 0 16))
      (fun s => lanesAre 0xe6ff7a03f9877b13 0x408b7b7d7330c379 s && s.len == 31 && s.status == 0x002) := by decide

/-- V-F4. -/
theorem test_final_small :
    nextSat (exec .final (absorbing 1 1 5)) (lanesAre 0xcfa0f7ddd84c76bc 0x589623161cf526f1) := by decide

/-- V-F5, with `RESULT` and `STATUS`. -/
theorem test_final_result :
    nextSat (exec .final (absorbing 0xffffffffffffffff 0xffffffffffffffff 16))
      (fun s => s.result == 0x1078d803f35ebe0b && s.h2 == 0x3617e88815f5c985 && s.status == 0x00B) := by decide

/-! ### Errors -/

/-- V-E1: `ILLEGAL` before `SEQUENCE`. -/
theorem test_illegal_wins :
    nextSat (accept 0x0f0e0d0c0b0a0908070605040302010012 State.reset) (fun s => s.status == 0x114) := by decide

/-- V-E7: ignored in `ERROR`, the first cause kept. -/
theorem test_first_cause_kept :
    nextSat (accept 0x05 (failed .sequence)) (fun s => s.status == 0x214) := by decide

/-! ### Clock edges -/

/-- R123: no command is accepted at a reset edge. -/
theorem test_reset_edge : nextSat (clockEdge resetting (absorbing 1 2 3)) (fun s => s.status == 0x000) := by decide

/-- R133: a step skips edges at which nothing is accepted. -/
theorem test_step_skips_stalls :
    nextSat (step { State.reset with edges := [stalled 0x01, stalled 0x01, Edge.accepting 0x0701] })
      (fun s => s.h1 == 7 && s.edges.isEmpty) := by decide

/-! ### The whole function -/

/-- V-H12: one block and a one-byte tail, every byte 0xff: sign-extended in the tail only. -/
theorem test_hash128_seventeen : hash128 (List.replicate 17 0xff) 0 = 0xc6b5a45505a4008d := by decide

/-- V-H4. -/
theorem test_hash128_hello_seed_one : hash128 [0x68, 0x65, 0x6c, 0x6c, 0x6f] 1 = 0xa78ddff5adae8d10 := by decide

/-! ### The assembler -/

/-- R63's example, in lower case and with a comment (R62). -/
theorem test_assemble_tail :
    Asm.assembleText [' ', 't', 'a', 'i', 'l', ' ', 'x', '"', '6', '8', '6', '5', '6', 'c', '6', 'C', '6', 'f', '"', ' ', ';', 'x']
      = .ok [0x00000000000000000000006f6c6c656853] := by decide

/-- R64's example: `HASH 0, x""`. -/
theorem test_assemble_hash :
    Asm.assembleText ['H', 'A', 'S', 'H', ' ', '0', ',', ' ', 'x', '"', '"'] = .ok [0x01, 0x04] := by decide

/-- V-C10: `.cmd` assembles a word that is no command, and it prints as `.cmd` (R65). -/
theorem test_disassemble_illegal :
    Asm.disassemble 0x0f0e0d0c0b0a0908070605040302010012
      = .cmd 2 1 [0, 1, 2, 3, 4, 5, 6, 7, 8, 9, 10, 11, 12, 13, 14, 15] := by decide

/-! ### Witnesses: states and operands that meet the hypotheses of each statement that has some -/

theorem witness_DecoderIsTotalByOpAndTlen :
    decode 0x05 = .error (.reservedOp 5) ∧ decode 0xff = .error (.reservedOp 15)
    ∧ decode 0x10 = .error (.reservedTlen 0 1) ∧ decode 0xf4 = .error (.reservedTlen 4 15)
    ∧ State.reset.phase ≠ .error := by decide

theorem witness_DecoderFollowsOpcodeTable :
    (∀ row ∈ opcodeTable, row.selects row.bits = true) ∧ (⟨.tail, 0x03, 0x0F⟩ : OpcodeRow).selects 0xf3 = true
    ∧ (∀ row ∈ opcodeTable, row.selects 0x05 = false) ∧ ∀ row ∈ opcodeTable, row.selects 0x14 = false := by decide

theorem witness_ReservedEncodingsRaiseIllegal :
    5 ≤ (5 : BitVec 4).toNat ∧ 5 ≤ (15 : BitVec 4).toNat ∧ ((4 : BitVec 4) = 4 ∧ (1 : BitVec 4) ≠ 0)
    ∧ ((0 : BitVec 4) = 0 ∧ (15 : BitVec 4) ≠ 0) ∧ (inPhase .done).phase ≠ .error := by decide

theorem witness_IgnoredDataBitsHaveNoEffect :
    let w : Cmd := 0x00000000ff000000000000000000000113
    let w' : Cmd := 0x0000000000000000000000000000000113
    w ≠ w' ∧ cmdOp w = 3 ∧ cmdOp w = cmdOp w' ∧ cmdTlen w = cmdTlen w'
    ∧ ∀ j < 8 * (cmdTlen w).toNat, (cmdData w).getLsbD j = (cmdData w').getLsbD j := by decide

theorem witness_IgnoredDataBitsOfInit :
    let w : Cmd := 0xffffffffffffffffffffffff8000000001
    let w' : Cmd := 0x0000000000000000000000008000000001
    w ≠ w' ∧ cmdOp w = 1 ∧ cmdOp w = cmdOp w' ∧ cmdTlen w = cmdTlen w'
    ∧ ∀ j < 32, (cmdData w).getLsbD j = (cmdData w').getLsbD j := by decide

theorem witness_DecodeEncodeRoundTrip :
    (Instr.tail (List.replicate 15 0xff)).wellFormed = true ∧ (Instr.tail []).wellFormed = true
    ∧ Instr.nop.wellFormed = true ∧ (Instr.init 0xffffffff).wellFormed = true
    ∧ (Instr.block 0xffffffffffffffff 1).wellFormed = true ∧ Instr.final.wellFormed = true := by decide

theorem witness_EncodeKeepsTheBitsRead :
    decode 0xffffffffffffffffffffffffffffffff13 = .ok (.tail [0xff])
    ∧ 7 < readBits (.tail [0xff]) ∧ 31 < readBits (.init 1) ∧ 127 < readBits (.block 0 0) := by decide

theorem witness_BlockWordsAreLittleEndian : (List.replicate 16 (0x80 : Byte)).length = 16 := by decide

theorem witness_RotateMovesBits : 0 < 1 ∧ 1 < 64 ∧ 0 < 63 ∧ 63 < 64 := by decide

theorem witness_TailFoldOrderIsImmaterial :
    [((2 : Byte), 1), ((1 : Byte), 0)].Perm ([(1 : Byte), 2].zipIdx) := by decide

theorem witness_TailOfSmallBytesIsLittleEndian :
    (List.replicate 15 (0x7f : Byte)).length ≤ 15 ∧ ∀ b ∈ List.replicate 15 (0x7f : Byte), b.toNat < 0x80 := by decide

theorem witness_BlockMixesLanes : (absorbing 1 2 16).phase = .absorb := by decide

theorem witness_TailMixesLanes :
    (absorbing 1 2 16).phase = .absorb ∧ ([] : List Byte).length ≤ 15 ∧ (List.replicate 8 (0 : Byte)).length ≤ 15
    ∧ (List.replicate 9 (0 : Byte)).length ≤ 15 ∧ (List.replicate 15 (0 : Byte)).length ≤ 15 := by decide

theorem witness_UnusedLanesAndEmptyTail :
    (0xff00 : Data) ≠ 0 ∧ (∀ j < (1 : BitVec 4).toNat, byteLane 0xff00 j = byteLane 0 j)
    ∧ (absorbing 1 2 16).phase = .absorb := by decide

theorem witness_FinalProducesResult :
    ((absorbing 1 2 16).phase = .absorb ∨ (absorbing 1 2 16).phase = .tailed)
    ∧ ((inPhase .tailed).phase = .absorb ∨ (inPhase .tailed).phase = .tailed) := by decide

theorem witness_LegalityTable :
    (inPhase .absorb).phase = .absorb ∧ (inPhase .tailed).phase = .tailed
    ∧ ((inPhase .idle).phase = .idle ∨ (inPhase .idle).phase = .done)
    ∧ ((inPhase .done).phase = .idle ∨ (inPhase .done).phase = .done) ∧ (inPhase .error).phase = .error := by decide

theorem witness_FrameOfEveryCommand :
    exec .final State.reset = .next (State.reset.inError .sequence)
    ∧ exec (.tail []) (inPhase .absorb) = .next (inPhase .tailed)
    ∧ exec .nop (inPhase .done) = .next (inPhase .done) := ⟨rfl, rfl, rfl⟩

theorem witness_FrameOfAbsorbAndFinal :
    nextSat (exec (.block 1 2) (absorbing 1 2 16)) (fun _ => true) ∧ (absorbing 1 2 16).phase = .absorb
    ∧ nextSat (exec .final (inPhase .tailed)) (fun _ => true)
    ∧ ((inPhase .tailed).phase = .absorb ∨ (inPhase .tailed).phase = .tailed) := by decide

theorem witness_LenCountsAbsorbedBytes : (List.replicate 15 (0 : Byte)).length ≤ 15 := by decide

theorem witness_IllegalWordRaises :
    decode 0x12 = .error (.reservedTlen 2 1) ∧ decode 0x05 = .error (.reservedOp 5)
    ∧ (inPhase .idle).phase ≠ .error ∧ (inPhase .done).phase ≠ .error := by decide

theorem witness_ErrorPriority :
    ((failed .illegal).phase = .error ∧ decode 0x02 = .ok (.block 0 0))
    ∧ ((inPhase .idle).phase ≠ .error ∧ decode 0x12 = .error (.reservedTlen 2 1))
    ∧ (decode 0x04 = .ok .final ∧ legality (Instr.final).command (inPhase .idle).phase = .seq)
    ∧ (decode 0x04 = .ok .final ∧ legality (Instr.final).command (inPhase .absorb).phase = .ok) := by decide

theorem witness_ErrorsArePrecise :
    (inPhase .tailed).phase ≠ .error
    ∧ accept 0x02 (inPhase .tailed) = .next ((inPhase .tailed).inError .sequence)
    ∧ ((inPhase .tailed).inError .sequence).phase = .error
    ∧ decode 0x04 = .ok .final := ⟨by decide, rfl, rfl, by decide⟩

theorem witness_ErrorIsLeftByInit :
    (failed .illegal).phase = .error
    ∧ clockEdge (Edge.accepting 0x01) (failed .illegal) = .next (inPhase .absorb)
    ∧ (inPhase .absorb).phase ≠ .error ∧ (Edge.accepting 0x01).accepts = true := ⟨rfl, rfl, by decide, rfl⟩

theorem witness_ErrorIsLeftByReset :
    (failed .illegal).phase = .error ∧ clockEdge resetting (failed .illegal) = .next State.reset
    ∧ resetting.rst = true ∧ State.reset.phase ≠ .error := ⟨rfl, rfl, rfl, by decide⟩

theorem witness_ErrorsDoNotDependOnData :
    decode 0x03 = .ok (.tail []) ∧ decode 0x8013 = .ok (.tail [0x80])
    ∧ (Instr.tail []).command = (Instr.tail [0x80]).command ∧ (inPhase .idle).phase = State.reset.phase
    ∧ nextSat (accept 0x03 (inPhase .idle)) (fun _ => true) ∧ nextSat (accept 0x8013 State.reset) (fun _ => true) := by
  decide

theorem witness_StatusWord :
    ((inPhase .done).phase = .done ∧ (inPhase .done).cause = .none) ∧ (inPhase .idle).phase = .idle := by decide

theorem witness_ResultIsWrittenByFinalOnly :
    nextSat (clockEdge (Edge.accepting 0x04) (absorbing 1 1 5)) (fun t => t.result != (absorbing 1 1 5).result)
    ∧ (inPhase .done).phase = .done ∧ (inPhase .absorb).phase ≠ .done := by decide

theorem witness_FlagsChangeByTheirRulesOnly :
    ((inPhase .absorb).resValid = false
      ∧ nextSat (clockEdge (Edge.accepting 0x04) (inPhase .absorb)) (fun t => t.resValid))
    ∧ ((inPhase .done).resValid = true
      ∧ nextSat (clockEdge (Edge.accepting 0x04) (inPhase .done)) (fun t => !t.resValid && t.err))
    ∧ ((failed .sequence).err = true
      ∧ nextSat (clockEdge (Edge.accepting 0x01) (failed .sequence)) (fun t => !t.err)) := by decide

theorem witness_ResetEdge : resetting.rst = true ∧ resetting.cmdValid = true ∧ resetting.cmdReady = true := by decide

theorem witness_AcceptanceNeedsAllThree :
    (Edge.accepting 1).accepts = true ∧ (Edge.accepting 1).rst = false
    ∧ (stalled 1).rst = false ∧ (stalled 1).ready = false ∧ (stalled 1).accepts = false ∧ resetting.accepts = false := by decide

theorem witness_StepRunsDecodedInstruction :
    (({ State.reset with edges := [Edge.accepting 0x0501] } : State).edges = Edge.accepting 0x0501 :: []
      ∧ (Edge.accepting 0x0501).accepts = true ∧ decode (Edge.accepting 0x0501).word = .ok (.init 5))
    ∧ decodeTableWord 136 0x0501 = some (.init 5) := by decide

theorem witness_IdleEdgesAreNoSteps : ∀ e ∈ [stalled 0x01, stalled 0x04], e.isIdle = true := by decide

theorem witness_HeldCommandIsAccepted :
    holdsUntilAccepted 0x01 ({ State.reset with edges := [stalled 0x01, Edge.accepting 0x01] } : State).edges = true := by
  decide

/-- A clock on which a host offers INIT to a block that is not ready, then to one that is, and then FINAL for ever. -/
def offering : Clock
  | 0 => stalled 0x01
  | 1 => Edge.accepting 0x01
  | _ => Edge.accepting 0x04

theorem offering_accepted (n : Nat) : acceptedBefore offering (n + 2) = n + 1 := by
  induction n with
  | zero => decide
  | succ n ih =>
    rw [acceptedBefore_succ, ih]
    rfl

theorem witness_HeldStreamCompletes : readyRisesAgain offering ∧ offersStream [0x01, 0x04] offering := by
  refine ⟨fun n => ⟨n + 2, by omega, .inr (by rfl)⟩, ?_⟩
  intro n w h
  match n with
  | 0 | 1 =>
    obtain rfl : (0x01 : Cmd) = w := Option.some.inj h
    decide
  | n + 2 =>
    rw [offering_accepted] at h
    cases n with
    | zero =>
      obtain rfl : (0x04 : Cmd) = w := Option.some.inj h
      decide
    | succ n => simp at h

theorem witness_HeldStreamTakesOneStepACommand : readyRisesAgain offering ∧ offersStream [0x01, 0x04] offering :=
  witness_HeldStreamCompletes

/-- Three edges are enough: the stream of the witness is accepted by the third, after one at which the block is not ready. -/
theorem test_held_stream : acceptedWords (firstEdges offering 3) = [0x01, 0x04] := by decide

theorem witness_EdgesRunTheAcceptedWords : noReset [stalled 0x01, Edge.accepting 0x01, Edge.accepting 0x04] = true := by
  decide

theorem witness_StepKeepsInvariant :
    (absorbing 1 2 16).Inv
    ∧ nextSat (step ((absorbing 1 2 16).withFetchWord 136 0x02)) (fun t => t.len == 32) := by decide

theorem witness_HashComputesHash128 : (List.replicate 17 (0xff : Byte)).length < 2 ^ 64 := by decide

theorem witness_NopsAndEmptyTailChangeNothing : (absorbing 1 2 16).phase = .absorb := by decide

theorem witness_ResultDependsOnMessageOnly :
    let es := [Edge.accepting 0x00, Edge.accepting 0x0701, Edge.accepting 0x04]
    let es' := [stalled 0x0701, Edge.accepting 0xff000000000701, Edge.accepting 0xff04]
    noReset es = true ∧ noReset es' = true
    ∧ commandsOf es = some (.init 7) :: [some .final] ∧ commandsOf es' = some (.init 7) :: [some .final]
    ∧ nextSat (runEdges es State.reset) (fun _ => true)
    ∧ nextSat (runEdges es' (absorbing 1 2 16)) (fun _ => true) := by decide

theorem witness_ResetValuesAreNeverObserved :
    let s' : State := { State.reset with h1 := 1, h2 := 2, len := 3, result := 4 }
    (State.reset.phase = .idle ∨ State.reset.phase = .error) ∧ State.reset.phase = s'.phase ∧ State.reset.cause = s'.cause
    ∧ nextSat (acceptAll [0x01, 0x04] State.reset) (fun _ => true)
    ∧ nextSat (acceptAll [0x01, 0x04] s') (fun _ => true) := by decide

theorem witness_ResetValuesFromError :
    let s : State := failed .sequence
    let s' : State := { failed .sequence with h1 := 1, h2 := 2, len := 3, result := 4 }
    (s.phase = .idle ∨ s.phase = .error) ∧ s.phase = s'.phase ∧ s.cause = s'.cause
    ∧ nextSat (acceptAll [0x02, 0x01, 0x04] s) (fun t => t.resValid)
    ∧ nextSat (acceptAll [0x02, 0x01, 0x04] s') (fun t => t.resValid) := by decide

theorem witness_AssemblyIntoWords :
    0xffffffff < 2 ^ 32 ∧ 2 ^ 32 ≤ 0x100000000 ∧ (List.replicate 16 (1 : Byte)).length = 16
    ∧ (List.replicate 15 (1 : Byte)).length ≠ 16 ∧ (List.replicate 15 (1 : Byte)).length ≤ 15
    ∧ 15 < (List.replicate 16 (1 : Byte)).length := by decide

end Sys2Proof.Tests
end

/-! SUPPORT. Which commands write `RESULT`, and the fields of `STATUS` (spec/10_state.md R20 to R25). -/

namespace Sys2Proof.Machine

section

variable {s t : State}

/-! ### Who writes `RESULT` (R22) -/

/-- Of the five rules, FINAL's alone writes `RESULT`. -/
theorem ruleOf_result_of_ne_final {i : Instr} (h : i ≠ .final) (s : State) : (ruleOf i s).result = s.result := by
  cases i with
  | nop => rfl
  | init seed => exact openMessage_result seed s
  | block k1 k2 => exact absorbBlock_result k1 k2 s
  | tail bytes => exact absorbTail_result bytes s
  | final => exact absurd rfl h

/-- An instruction that changes `RESULT` is a FINAL that ran its rule: error entry and an ignored command keep `RESULT`. -/
theorem exec_changes_result {i : Instr} (h : exec i s = .next t) (hr : t.result ≠ s.result) :
    i = .final ∧ t = finishMessage s := by
  obtain ⟨-, rfl⟩ | ⟨-, rfl⟩ | ⟨-, rfl⟩ := exec_cases h
  · obtain rfl : i = .final := by_contra fun hi => hr (ruleOf_result_of_ne_final hi s)
    exact ⟨rfl, by rw [ruleOf]⟩
  · exact absurd (State.raiseError_result _ s) hr
  · exact absurd rfl hr

theorem acceptIllegal_result (h : acceptIllegal s = .next t) : t.result = s.result := by
  obtain ⟨-, rfl⟩ | ⟨-, rfl⟩ := acceptIllegal_cases h
  · rfl
  · exact State.raiseError_result _ s

theorem accept_changes_result {w : Cmd} (h : accept w s = .next t) (hr : t.result ≠ s.result) :
    decode w = .ok .final ∧ t = finishMessage s := by
  obtain ⟨i, hi, hexec⟩ | ⟨r, -, hill⟩ := accept_cases h
  · obtain ⟨rfl, ht⟩ := exec_changes_result hexec hr
    exact ⟨hi, ht⟩
  · exact absurd (acceptIllegal_result hill) hr

/-- A clock edge that changes `RESULT` accepts a FINAL that runs its rule: a reset edge does not write it. -/
theorem clockEdge_changes_result {e : Edge} (h : clockEdge e s = .next t) (hr : t.result ≠ s.result) :
    e.accepts = true ∧ decode e.word = .ok .final ∧ t = finishMessage s := by
  obtain ⟨-, rfl⟩ | ⟨-, hacc, hword⟩ | ⟨-, -, rfl⟩ := clockEdge_cases h
  · exact absurd (State.resetEdge_result s) hr
  · exact ⟨hacc, accept_changes_result hword hr⟩
  · exact absurd rfl hr

/-! ### The fields of `STATUS` (R25) -/

theorem State.status_phase_field (s : State) : s.status.extractLsb' 0 3 = s.phase.code :=
  BitVec.extractLsb'_append_eq_right

theorem State.status_resValid_bit (s : State) : s.status.getLsbD 3 = s.resValid := by
  simp only [State.status, BitVec.getLsbD_append]
  simp

theorem State.status_err_bit (s : State) : s.status.getLsbD 4 = s.err := by
  simp only [State.status, BitVec.getLsbD_append]
  simp

/-- Above `ERR`, `STATUS` is `CAUSE` over three zeros: the three lower parts are passed by one at a time. -/
theorem State.status_extract_above_err (s : State) (start len : Nat) :
    s.status.extractLsb' (start + 5) len = (s.cause.code ++ (0 : BitVec 3)).extractLsb' start len := by
  calc s.status.extractLsb' (start + 5) len
    _ = (s.cause.code ++ (0 : BitVec 3) ++ BitVec.ofBool s.err ++ BitVec.ofBool s.resValid).extractLsb' (start + 2) len :=
      BitVec.extractLsb'_append_eq_of_le (by omega)
    _ = (s.cause.code ++ (0 : BitVec 3) ++ BitVec.ofBool s.err).extractLsb' (start + 1) len :=
      BitVec.extractLsb'_append_eq_of_le (by omega)
    _ = (s.cause.code ++ (0 : BitVec 3)).extractLsb' start len :=
      BitVec.extractLsb'_append_eq_of_le (by omega)

theorem State.status_zero_field (s : State) : s.status.extractLsb' 5 3 = 0 :=
  (s.status_extract_above_err 0 3).trans BitVec.extractLsb'_append_eq_right

theorem State.status_cause_field (s : State) : s.status.extractLsb' 8 4 = s.cause.code :=
  (s.status_extract_above_err 3 4).trans BitVec.extractLsb'_append_eq_left

theorem State.status_of_done (hp : s.phase = .done) (hc : s.cause = .none) : s.status = 0x00B := by
  simp [State.status, State.err, State.resValid, hp, hc, Phase.code, Cause.code]

theorem State.raiseError_sequence_status (s : State) : (s.raiseError .sequence).status = 0x214 := by
  simp [State.status, State.err, State.resValid, Phase.code, Cause.code]

theorem exec_block_of_idle (h : s.phase = .idle) (k1 k2 : Word) :
    exec (.block k1 k2) s = .next (s.raiseError .sequence) :=
  (exec_eq_gated _ s).trans (gated_of_seq (by rw [h]; rfl))

end

/-- Settles O33: only an accepted FINAL changes `RESULT` at an edge, and what it leaves is `finishMessage`. -/
theorem resultIsWrittenByFinalOnly : Obligations.ResultIsWrittenByFinalOnly := by
  refine ⟨fun e s t h hr => ?_, fun s => ⟨fun hd => ?_, State.readResult_of_not_done⟩⟩
  · obtain ⟨hacc, hdec, rfl⟩ := clockEdge_changes_result h hr
    exact ⟨hacc, hdec, finishMessage_phase s, finishMessage_result s,
      (finishMessage_result s).trans (finishMessage_h1 s).symm⟩
  · exact ⟨State.readResult_of_done hd, State.resData_of_done hd⟩

/-- Settles O32: each field is one part of the concatenation that `STATUS` is, and a BLOCK in `IDLE` raises `SEQUENCE`. -/
theorem statusWord : Obligations.StatusWord := by
  refine ⟨⟨rfl, rfl, rfl, rfl, rfl⟩, ⟨rfl, rfl, rfl⟩, fun s => ?_⟩
  exact ⟨s.status_phase_field, s.status_resValid_bit, s.status_err_bit, s.status_zero_field, s.status_cause_field,
    State.status_of_done,
    fun hp k1 k2 => ⟨s.raiseError .sequence, exec_block_of_idle hp k1 k2, s.raiseError_sequence_status⟩⟩

end Sys2Proof.Machine

/-! SUPPORT. The bits of BLOCK's two words, and one clock edge without a reset (spec/20_memory.md R35, R44). -/

namespace Sys2Proof.Machine

/-! ### The bits of BLOCK's words (R35, R53) -/

theorem k1Of_getLsbD {i : Nat} (hi : i < 64) (data : Data) : (k1Of data).getLsbD i = data.getLsbD i := by
  simp [k1Of, hi]

theorem k2Of_getLsbD {i : Nat} (hi : i < 64) (data : Data) : (k2Of data).getLsbD i = data.getLsbD (64 + i) := by
  simp [k2Of, hi]

/-- `packBytes_getLsbD` by byte and bit: bit `b` of byte `j` is bit `8j + b` of the data. -/
theorem packBytes_getLsbD_byte (bytes : List Byte) {j b : Nat} (hj : j < 16) (hb : b < 8) :
    (packBytes bytes).getLsbD (8 * j + b) = (bytes.getD j 0).getLsbD b := by
  have hdiv : (8 * j + b) / 8 = j := by omega
  have hmod : (8 * j + b) % 8 = b := by omega
  rw [packBytes_getLsbD _ _ (by omega), hdiv, hmod]

theorem decode_block_word (data : Data) : decode (mkCmd 2 0 data) = .ok (.block (k1Of data) (k2Of data)) := by
  rw [decode_op2 (cmdOp_mkCmd 2 0 data), needTlenZero_ok (cmdTlen_mkCmd 2 0 data), cmdData_mkCmd]

/-- Settles O10: BLOCK's words are the two halves of the packed bytes, and bit `64 + (8j + b)` of the data is bit `b` of byte
`8 + j`. -/
theorem blockWordsAreLittleEndian : Obligations.BlockWordsAreLittleEndian := by
  intro bytes _
  refine ⟨_, _, decode_block_word (packBytes bytes), fun j hj b hb => ⟨?_, ?_⟩⟩
  · rw [k1Of_getLsbD (by omega), packBytes_getLsbD_byte bytes (by omega) hb]
  · have hbit : 64 + (8 * j + b) = 8 * (8 + j) + b := by omega
    rw [k2Of_getLsbD (by omega), hbit, packBytes_getLsbD_byte bytes (by omega) hb]

/-! ### One edge without a reset (R127) -/

/-- An accepting edge does what its word does. -/
theorem clockEdge_of_accepts {e : Edge} (h : e.accepts = true) (s : State) : clockEdge e s = accept e.word s := by
  simp [clockEdge, rst_of_accepts h, h]

theorem isIdle_of_not_accepts {e : Edge} (hrst : e.rst = false) (hacc : e.accepts = false) : e.isIdle = true := by
  simp [Edge.isIdle, hrst, hacc]

theorem acceptedWords_cons_of_accepts {e : Edge} (h : e.accepts = true) (es : List Edge) :
    acceptedWords (e :: es) = e.word :: acceptedWords es := by
  simp [acceptedWords, h]

theorem acceptedWords_cons_of_not_accepts {e : Edge} (h : e.accepts = false) (es : List Edge) :
    acceptedWords (e :: es) = acceptedWords es := by
  simp [acceptedWords, h]

theorem noReset_cons {e : Edge} {es : List Edge} : noReset (e :: es) = true ↔ e.rst = false ∧ noReset es = true := by
  simp [noReset]

/-- Settles O40, by induction on the edges: an accepting edge runs its word, and any other edge without a reset is idle. -/
theorem edgesRunTheAcceptedWords : Obligations.EdgesRunTheAcceptedWords := by
  intro es
  induction es with
  | nil => intro s _; rfl
  | cons e es ih =>
    intro s h
    obtain ⟨hrst, hes⟩ := noReset_cons.mp h
    have hrest : runEdges es = acceptAll (acceptedWords es) := funext fun t => ih t hes
    rw [runEdges, hrest]
    cases hacc : e.accepts with
    | true => rw [clockEdge_of_accepts hacc, acceptedWords_cons_of_accepts hacc, acceptAll]
    | false =>
      rw [clockEdge_of_idle (isIdle_of_not_accepts hrst hacc), andThen_next, acceptedWords_cons_of_not_accepts hacc]

end Sys2Proof.Machine

/-! SUPPORT. What the header of a word, `op` and `tlen`, decides, and which data bits a command reads
(spec/30_encoding.md R48, R52 to R59). -/

namespace Sys2Proof

/-! ### Decoding by `op` and `tlen` (R55 to R58) -/

/-- The `op` of a command (R55). -/
def Command.opcode : Command → BitVec 4
  | .nop => 0
  | .init => 1
  | .block => 2
  | .tail => 3
  | .final => 4

theorem Command.opcode_lt_five (c : Command) : c.opcode.toNat < 5 := by
  cases c <;> decide

theorem Command.opcode_eq_three {c : Command} : c.opcode = 3 ↔ c = .tail := by
  cases c <;> decide

/-- The three ways of the decoder: a TAIL, a reserved `op`, and a command that demands a zero `tlen`. -/
theorem decode_cases (w : Cmd) :
    (cmdOp w = 3 ∧ decode w = .ok (.tail (lanes (cmdData w) (cmdTlen w).toNat)))
    ∨ (5 ≤ (cmdOp w).toNat ∧ decode w = .error (.reservedOp (cmdOp w)))
    ∨ ∃ i : Instr, cmdOp w = i.command.opcode ∧ i.command ≠ .tail ∧ decode w = needTlenZero w i := by
  obtain h | h | h | h | h | h := op_cases (cmdOp w)
  · exact .inr (.inr ⟨.nop, h, nofun, decode_op0 h⟩)
  · exact .inr (.inr ⟨.init (seedOf (cmdData w)), h, nofun, decode_op1 h⟩)
  · exact .inr (.inr ⟨.block (k1Of (cmdData w)) (k2Of (cmdData w)), h, nofun, decode_op2 h⟩)
  · exact .inl ⟨h, decode_op3 h⟩
  · exact .inr (.inr ⟨.final, h, nofun, decode_op4 h⟩)
  · exact .inr (.inl ⟨h, decode_reserved h⟩)

/-- A word that decodes to a command has that command's `op`, and a zero `tlen` unless it is a TAIL. -/
theorem decode_ok_header {w : Cmd} {i : Instr} (h : decode w = .ok i) :
    cmdOp w = i.command.opcode ∧ (i.command ≠ .tail → cmdTlen w = 0) := by
  obtain ⟨hop, hdec⟩ | ⟨-, hdec⟩ | ⟨j, hop, -, hdec⟩ := decode_cases w
  · obtain rfl := Except.ok.inj (hdec.symm.trans h)
    exact ⟨hop, fun hne => absurd rfl hne⟩
  · exact nomatch hdec.symm.trans h
  · obtain ⟨htlen, rfl⟩ := needTlenZero_eq_ok (hdec.symm.trans h)
    exact ⟨hop, fun _ => htlen⟩

theorem needTlenZero_rejects_iff {w : Cmd} {i : Instr} : (∃ r, needTlenZero w i = .error r) ↔ cmdTlen w ≠ 0 := by
  constructor
  · rintro ⟨r, hr⟩ h
    exact nomatch (needTlenZero_ok h i).symm.trans hr
  · exact fun h => ⟨_, needTlenZero_error h i⟩

/-- The words that are `ILLEGAL`: a reserved `op` (R57), or a non-zero `tlen` on any command but TAIL (R58). -/
theorem decode_rejects_iff {w : Cmd} :
    (∃ r, decode w = .error r) ↔ 5 ≤ (cmdOp w).toNat ∨ (cmdOp w ≠ 3 ∧ cmdTlen w ≠ 0) := by
  obtain ⟨hop, hdec⟩ | ⟨hop, hdec⟩ | ⟨i, hop, hi, hdec⟩ := decode_cases w
  · simp [hdec, hop]
  · simp [hdec, hop]
  · have hlt : ¬ 5 ≤ (cmdOp w).toNat := hop ▸ Nat.not_le.mpr i.command.opcode_lt_five
    have hne : cmdOp w ≠ 3 := fun h3 => hi (Command.opcode_eq_three.mp (hop.symm.trans h3))
    rw [hdec, needTlenZero_rejects_iff, or_iff_right hlt, and_iff_right hne]

theorem decode_is_nop_iff {w : Cmd} : decode w = .ok .nop ↔ cmdOp w = 0 ∧ cmdTlen w = 0 :=
  ⟨fun h => (decode_ok_header h).imp_right (· nofun), fun ⟨hop, htlen⟩ => (decode_op0 hop).trans (needTlenZero_ok htlen _)⟩

theorem decode_is_init_iff {w : Cmd} : (∃ seed, decode w = .ok (.init seed)) ↔ cmdOp w = 1 ∧ cmdTlen w = 0 :=
  ⟨fun ⟨_, h⟩ => (decode_ok_header h).imp_right (· nofun),
    fun ⟨hop, htlen⟩ => ⟨_, (decode_op1 hop).trans (needTlenZero_ok htlen _)⟩⟩

theorem decode_is_block_iff {w : Cmd} : (∃ k1 k2, decode w = .ok (.block k1 k2)) ↔ cmdOp w = 2 ∧ cmdTlen w = 0 :=
  ⟨fun ⟨_, _, h⟩ => (decode_ok_header h).imp_right (· nofun),
    fun ⟨hop, htlen⟩ => ⟨_, _, (decode_op2 hop).trans (needTlenZero_ok htlen _)⟩⟩

theorem decode_is_tail_iff {w : Cmd} : (∃ bytes, decode w = .ok (.tail bytes)) ↔ cmdOp w = 3 :=
  ⟨fun ⟨_, h⟩ => (decode_ok_header h).1, fun hop => ⟨_, decode_op3 hop⟩⟩

theorem decode_is_final_iff {w : Cmd} : decode w = .ok .final ↔ cmdOp w = 4 ∧ cmdTlen w = 0 :=
  ⟨fun h => (decode_ok_header h).imp_right (· nofun), fun ⟨hop, htlen⟩ => (decode_op4 hop).trans (needTlenZero_ok htlen _)⟩

/-! ### The bits of the fields (R48) -/

theorem cmdOp_getLsbD {i : Nat} (hi : i < 4) (w : Cmd) : (cmdOp w).getLsbD i = w.getLsbD i := by
  simp [cmdOp, hi]

theorem cmdTlen_getLsbD {i : Nat} (hi : i < 4) (w : Cmd) : (cmdTlen w).getLsbD i = w.getLsbD (i + 4) := by
  simp [cmdTlen, hi, Nat.add_comm]

theorem cmdData_getLsbD {i : Nat} (hi : i < 128) (w : Cmd) : (cmdData w).getLsbD i = w.getLsbD (i + 8) := by
  simp [cmdData, hi, Nat.add_comm]

/-! ### The data bits a command reads (R52 to R54, R59) -/

theorem seedOf_congr {d d' : Data} (h : ∀ j < 32, d.getLsbD j = d'.getLsbD j) : seedOf d = seedOf d' := by
  apply BitVec.eq_of_getLsbD_eq
  intro j hj
  simp [seedOf, hj, h j hj]

theorem byteLane_congr {d d' : Data} {j : Nat} (h : ∀ b < 8, d.getLsbD (8 * j + b) = d'.getLsbD (8 * j + b)) :
    byteLane d j = byteLane d' j := by
  apply BitVec.eq_of_getLsbD_eq
  intro b hb
  simp [byteLane, hb, h b hb]

theorem lanes_congr {d d' : Data} {n : Nat} (h : ∀ j < 8 * n, d.getLsbD j = d'.getLsbD j) : lanes d n = lanes d' n :=
  List.map_congr_left fun j hj => byteLane_congr fun b hb =>
    have hjn : j < n := List.mem_range.mp hj
    h (8 * j + b) (by omega)

theorem needTlenZero_congr {w w' : Cmd} (hop : cmdOp w = cmdOp w') (htlen : cmdTlen w = cmdTlen w') (i : Instr) :
    needTlenZero w i = needTlenZero w' i := by
  rw [needTlenZero, needTlenZero, hop, htlen]

/-- The decoder sees `op`, `tlen` and the data bits the command reads, and nothing else of the word. -/
theorem decode_congr {w w' : Cmd} (hop : cmdOp w = cmdOp w') (htlen : cmdTlen w = cmdTlen w')
    (hinit : cmdOp w = 1 → ∀ j < 32, (cmdData w).getLsbD j = (cmdData w').getLsbD j)
    (hblock : cmdOp w = 2 → cmdData w = cmdData w')
    (htail : cmdOp w = 3 → ∀ j < 8 * (cmdTlen w).toNat, (cmdData w).getLsbD j = (cmdData w').getLsbD j) :
    decode w = decode w' := by
  obtain h | h | h | h | h | h := op_cases (cmdOp w)
  · rw [decode_op0 h, decode_op0 (hop ▸ h), needTlenZero_congr hop htlen]
  · rw [decode_op1 h, decode_op1 (hop ▸ h), needTlenZero_congr hop htlen, seedOf_congr (hinit h)]
  · rw [decode_op2 h, decode_op2 (hop ▸ h), needTlenZero_congr hop htlen, hblock h]
  · rw [decode_op3 h, decode_op3 (hop ▸ h), lanes_congr (htail h), htlen]
  · rw [decode_op4 h, decode_op4 (hop ▸ h), needTlenZero_congr hop htlen]
  · rw [decode_reserved h, decode_reserved (hop ▸ h), hop]

end Sys2Proof

namespace Sys2Proof.Machine

/-- Outside `ERROR` a word that decodes to `ILLEGAL` raises `Error(ILLEGAL)` (R56, spec/60_exceptions.md R105). -/
theorem accept_reject_raises {w : Cmd} {r : Reject} {s : State} (h : decode w = .error r) (hp : s.phase ≠ .error) :
    accept w s = .next (s.inError .illegal) := by
  rw [accept_of_reject h, acceptIllegal, if_neg hp, raiseError_eq]

theorem accept_congr {w w' : Cmd} (h : decode w = decode w') (s : State) : accept w s = accept w' s := by
  rw [accept, accept, h]

/-- R56's count: the 256 values of `CMD[7:0]`, each decoded. -/
theorem decodable_headers_count :
    ((List.range 256).filter fun n => (decode (BitVec.ofNat 136 n)).toOption.isSome).length = 20 := by
  decide

/-- Settles O4: one lemma for each of the six answers of the decoder, the raise, and the count. -/
theorem decoderIsTotalByOpAndTlen : Obligations.DecoderIsTotalByOpAndTlen :=
  ⟨fun _ => ⟨decode_is_nop_iff, decode_is_init_iff, decode_is_block_iff, decode_is_tail_iff, decode_is_final_iff,
    decode_rejects_iff, fun _ _ => accept_reject_raises⟩, decodable_headers_count⟩

/-- Settles O7: the two words decode alike, since the decoder sees only the bits that agree. -/
theorem ignoredDataBitsHaveNoEffect : Obligations.IgnoredDataBitsHaveNoEffect :=
  fun _ _ s hop htlen hinit hblock htail => accept_congr (decode_congr hop htlen hinit hblock htail) s

/-- Settles O2: each field's bits are the word's at its offset, and the word on the signals is built from the fields. -/
theorem commandWordFields : Obligations.CommandWordFields :=
  ⟨fun w => ⟨(mkCmd_fields w).symm, fun _ hi => cmdOp_getLsbD hi w, fun _ hi => cmdTlen_getLsbD hi w,
    fun _ hi => cmdData_getLsbD hi w⟩,
   fun e => ⟨cmdOp_mkCmd e.cmdOp e.cmdTlen e.cmdData, cmdTlen_mkCmd e.cmdOp e.cmdTlen e.cmdData,
    cmdData_mkCmd e.cmdOp e.cmdTlen e.cmdData⟩⟩

/-- Settles O6: both encodings are among those `decode_rejects_iff` lists. -/
theorem reservedEncodingsRaiseIllegal : Obligations.ReservedEncodingsRaiseIllegal := by
  intro op tlen data s h
  have hheader : 5 ≤ op.toNat ∨ (op ≠ 3 ∧ tlen ≠ 0) :=
    h.imp_right fun ⟨hop, htlen⟩ => ⟨by rintro rfl; revert hop; decide, htlen⟩
  obtain ⟨r, hr⟩ : ∃ r, decode (mkCmd op tlen data) = .error r :=
    decode_rejects_iff.mpr (by rwa [cmdOp_mkCmd, cmdTlen_mkCmd])
  exact ⟨⟨r, hr⟩, accept_reject_raises hr⟩

end Sys2Proof.Machine

/-! SUPPORT. The bits of a rotation, the values of the two word mixes, and what NOP and INIT do in every phase
(spec/40_init_and_control.md R66 to R72). -/

namespace Sys2Proof.Machine

/-! ### The rotation (R66) -/

/-- The formula of R66 is the library's rotation. -/
theorem rotl64_eq_rotateLeft (x : Word) {r : Nat} (hr : r < 64) : rotl64 x r = x.rotateLeft r :=
  (BitVec.rotateLeft_eq_rotateLeftAux_of_lt hr).symm

/-- The low `r` bits of a rotation are the top bits of `x`, come round; the others are moved up by `r`. -/
theorem rotl64_getLsbD (x : Word) {r i : Nat} (hr : r < 64) (hi : i < 64) :
    (rotl64 x r).getLsbD i = x.getLsbD ((i + 64 - r) % 64) := by
  rw [rotl64_eq_rotateLeft x hr, BitVec.getLsbD_rotateLeft_of_le hr]
  by_cases h : i < r
  · have hround : (i + 64 - r) % 64 = 64 - r + i := by omega
    simp [h, hround]
  · have hup : (i + 64 - r) % 64 = i - r := by omega
    simp [h, hi, hup]

/-- Settles O11: the formula is the definition, the bit law is `rotl64_getLsbD`, and the three examples are computed. -/
theorem rotateMovesBits : Obligations.RotateMovesBits :=
  ⟨fun x _ _ hr => ⟨by rw [rotl64], fun _ hi => rotl64_getLsbD x hr hi⟩, by decide⟩

/-! ### The word mixes (R69, R70) -/

theorem mixK1_eq (k : Word) : mixK1 k = rotl64 (k * 0x87c37b91114253d5) 31 * 0x4cf5ad432745937f := by
  rw [mixK1, c1, c2]

theorem mixK2_eq (k : Word) : mixK2 k = rotl64 (k * 0x4cf5ad432745937f) 33 * 0x87c37b91114253d5 := by
  rw [mixK2, c1, c2]

/-- Settles O12: the two formulas with the constants of R67 put in, and the six values of the rules computed. -/
theorem wordMixes : Obligations.WordMixes :=
  ⟨fun k => ⟨mixK1_eq k, mixK2_eq k⟩, by decide⟩

/-! ### NOP (R71) -/

theorem legality_nop {p : Phase} (h : p ≠ .error) : legality .nop p = .ok := by
  cases p with
  | error => exact absurd rfl h
  | idle | absorb | tailed | done => rfl

/-- In `ERROR` the gate ignores NOP; in every other phase it runs NOP's rule, the identity. -/
theorem exec_nop (s : State) : exec .nop s = .next s := by
  rw [exec_eq_gated]
  by_cases h : s.phase = .error
  · exact gated_of_ignored (h ▸ legality_error nofun)
  · exact gated_of_ok (legality_nop h)

theorem decode_nop_word (data : Data) : decode (mkCmd 0 0 data) = .ok .nop :=
  decode_is_nop_iff.mpr ⟨cmdOp_mkCmd 0 0 data, cmdTlen_mkCmd 0 0 data⟩

/-- Settles O17: a NOP word decodes to NOP whatever its data, and NOP answers the state it is given. -/
theorem nopHasNoEffect : Obligations.NopHasNoEffect :=
  fun s => ⟨exec_nop s, fun data => (accept_of_decode (decode_nop_word data) s).trans (exec_nop s)⟩

/-! ### INIT (R72) -/

theorem openMessage_resValid (seed : BitVec 32) (s : State) : (openMessage seed s).resValid = false := by
  simp [State.resValid]

theorem openMessage_err (seed : BitVec 32) (s : State) : (openMessage seed s).err = false := by
  simp [State.err]

theorem openMessage_status (seed : BitVec 32) (s : State) : (openMessage seed s).status = 0x001 := by
  simp [State.status, openMessage_resValid, openMessage_err, Phase.code, Cause.code]

theorem decode_init_word (data : Data) : decode (mkCmd 1 0 data) = .ok (.init (seedOf data)) := by
  rw [decode_op1 (cmdOp_mkCmd 1 0 data), needTlenZero_ok (cmdTlen_mkCmd 1 0 data), cmdData_mkCmd]

/-- Settles O18: INIT is legal in every phase, so its next state is the one its rule leaves; its word carries the seed in the low
32 data bits. -/
theorem initOpensMessage : Obligations.InitOpensMessage := by
  intro s
  refine ⟨fun seed => ?_, fun data => ?_⟩
  · exact ⟨openMessage seed s, exec_init seed s, openMessage_eq seed s, openMessage_resValid seed s, openMessage_err seed s,
      openMessage_status seed s⟩
  · exact accept_of_decode (decode_init_word data) s

end Sys2Proof.Machine

/-! SUPPORT. What BLOCK does in `ABSORB`, a run of BLOCKs, and the bytes `LEN` counts over them and one TAIL
(spec/41_block_mixer.md R73 to R77, spec/42_tail_processor.md R91). -/

namespace Sys2Proof.Machine

/-! ### One BLOCK (R74) -/

/-- Settles O19: in `ABSORB` BLOCK leaves the state of its rule, whose lanes are those of `blockMix` with its constants. -/
theorem blockMixesLanes : Obligations.BlockMixesLanes := by
  intro k1 k2 s h
  rw [exec_block_of_absorb h, absorbBlock_eq, blockMix_eq]

/-! ### A run of BLOCKs (R77) -/

/-- The state that BLOCKs with these words leave, absorbed from left to right. -/
def absorbBlocks (ks : List (Word × Word)) (s : State) : State := ks.foldl (fun s k => absorbBlock k.1 k.2 s) s

@[simp] theorem absorbBlocks_nil (s : State) : absorbBlocks [] s = s := by
  rw [absorbBlocks, List.foldl_nil]

theorem absorbBlocks_cons (k : Word × Word) (ks : List (Word × Word)) (s : State) :
    absorbBlocks (k :: ks) s = absorbBlocks ks (absorbBlock k.1 k.2 s) := by
  rw [absorbBlocks, List.foldl_cons, absorbBlocks]

/-- In `ABSORB` every BLOCK of a run is legal, so the run leaves what the rules of its BLOCKs leave. -/
theorem execAll_blocks_of_absorb (ks : List (Word × Word)) {s : State} (h : s.phase = .absorb) :
    execAll (ks.map fun k => .block k.1 k.2) s = .next (absorbBlocks ks s) := by
  induction ks generalizing s with
  | nil => rw [List.map_nil, execAll, absorbBlocks_nil]
  | cons k ks ih =>
    have hk : (absorbBlock k.1 k.2 s).phase = .absorb := (absorbBlock_phase k.1 k.2 s).trans h
    rw [List.map_cons, execAll, exec_block_of_absorb h, andThen_next, ih hk, absorbBlocks_cons]

@[simp] theorem absorbBlocks_phase (ks : List (Word × Word)) (s : State) : (absorbBlocks ks s).phase = s.phase := by
  induction ks generalizing s with
  | nil => rw [absorbBlocks_nil]
  | cons k ks ih => rw [absorbBlocks_cons, ih, absorbBlock_phase]

/-- Each BLOCK counts 16 bytes, and the count wraps. -/
@[simp] theorem absorbBlocks_len (ks : List (Word × Word)) (s : State) :
    (absorbBlocks ks s).len = s.len + BitVec.ofNat 64 (16 * ks.length) := by
  induction ks generalizing s with
  | nil => simp
  | cons k ks ih =>
    have hcount : 16 * (k :: ks).length = Config.blockBytes + 16 * ks.length := by
      rw [List.length_cons, Config.blockBytes]
      omega
    rw [absorbBlocks_cons, ih, absorbBlock_len, hcount, BitVec.ofNat_add, BitVec.add_assoc]

/-- INIT opens the message in any phase, so the BLOCKs after it are all absorbed. -/
theorem execAll_init_blocks (seed : BitVec 32) (ks : List (Word × Word)) (s : State) :
    execAll (.init seed :: ks.map fun k => .block k.1 k.2) s = .next (absorbBlocks ks (openMessage seed s)) := by
  rw [execAll, exec_init, andThen_next, execAll_blocks_of_absorb ks (openMessage_phase seed s)]

/-! ### The one TAIL (R91) -/

/-- After a TAIL a second one is out of sequence (spec/60_exceptions.md R106). -/
theorem exec_tail_of_tailed {s : State} (h : s.phase = .tailed) (bytes : List Byte) :
    exec (.tail bytes) s = .next (s.inError .sequence) := by
  rw [exec_eq_gated, gated_of_seq (by rw [h]; rfl), raiseError_eq]

/-- Settles O25: the states are those the rules of INIT, of the BLOCKs and of the TAIL leave, and their `LEN` adds up. -/
theorem lenCountsAbsorbedBytes : Obligations.LenCountsAbsorbedBytes := by
  intro seed blocks bytes again s _
  have hphase : (absorbBlocks blocks (openMessage seed s)).phase = .absorb := by
    rw [absorbBlocks_phase, openMessage_phase]
  have hlen : (absorbBlocks blocks (openMessage seed s)).len = BitVec.ofNat 64 (16 * blocks.length) := by
    simp [absorbBlocks_len, openMessage_len]
  refine ⟨_, _, execAll_init_blocks seed blocks s, hphase, hlen, exec_tail_of_absorb hphase bytes,
    absorbTail_phase bytes _, ?_, exec_tail_of_tailed (absorbTail_phase bytes _) again⟩
  rw [absorbTail_len, hlen, BitVec.ofNat_add]

end Sys2Proof.Machine

/-! SUPPORT. The accumulator of tail bytes, one byte at a time and as the loop of R81, and what a TAIL word does in every phase
(spec/42_tail_processor.md R80 to R90). -/

namespace Sys2Proof.Machine

/-! ### The accumulator (R82 to R84) -/

@[simp] theorem foldTail_nil : foldTail [] = 0 := rfl

/-- The last byte is folded first, and its term may as well be added last. -/
theorem foldTail_append_singleton (bytes : List Byte) (b : Byte) :
    foldTail (bytes ++ [b]) = foldTail bytes ^^^ (sext64 b <<< (8 * bytes.length)) := by
  have hlast : (bytes ++ [b]).zipIdx = bytes.zipIdx ++ [(b, bytes.length)] := by simp [List.zipIdx_append]
  rw [foldTail, foldTail, hlast, List.foldr_append, foldr_xor_init]
  simp

/-- Sign extension keeps the byte's eight bits and copies its bit 7 above them (R84). -/
theorem sext64_getLsbD (b : Byte) {i : Nat} (hi : i < 64) :
    (sext64 b).getLsbD i = if i < 8 then b.getLsbD i else b.getLsbD 7 := by
  rw [sext64, BitVec.getLsbD_signExtend, BitVec.msb_eq_getLsbD_last, decide_eq_true hi, Bool.true_and]

/-- Settles O14: the accumulator grows by one term a byte, sign extension is known bit by bit, and the values are computed. -/
theorem tailFoldsSignExtendedBytes : Obligations.TailFoldsSignExtendedBytes :=
  ⟨foldTail_nil, foldTail_append_singleton, fun b _ hi => sext64_getLsbD b hi, by decide⟩

/-! ### The two loops of R81 -/

theorem zipIdx_eq_map_range {bytes : List Byte} {byteAt : Nat → Byte} (h : ∀ i < bytes.length, bytes.getD i 0 = byteAt i) :
    bytes.zipIdx = (List.range bytes.length).map fun i => (byteAt i, i) := by
  apply List.ext_getElem (by simp)
  intro i hi _
  have hlt : i < bytes.length := by simpa using hi
  simp [← h i hlt, hlt]

/-- The accumulator is R81's loop, from the highest index down, over bytes read by their index. -/
theorem foldTail_eq_loop {bytes : List Byte} {byteAt : Nat → Byte} {n : Nat} (hlen : bytes.length = n)
    (h : ∀ i < n, bytes.getD i 0 = byteAt i) :
    foldTail bytes = (List.range n).reverse.foldl (fun k i => k ^^^ (sext64 (byteAt i) <<< (8 * i))) 0 := by
  subst hlen
  rw [foldTail, zipIdx_eq_map_range h, List.foldr_map, List.foldl_reverse]

theorem tailK1_eq_loop (bytes : List Byte) :
    tailK1 bytes = (List.range (min bytes.length 8)).reverse.foldl
      (fun k i => k ^^^ (sext64 (bytes.getD i 0) <<< (8 * i))) 0 := by
  refine foldTail_eq_loop (by rw [List.length_take, Nat.min_comm]) fun i hi => ?_
  have h8 : i < 8 := by omega
  simp [h8]

theorem tailK2_eq_loop (bytes : List Byte) :
    tailK2 bytes = (List.range (bytes.length - 8)).reverse.foldl
      (fun k i => k ^^^ (sext64 (bytes.getD (i + 8) 0) <<< (8 * i))) 0 :=
  foldTail_eq_loop List.length_drop fun i _ => by simp [Nat.add_comm]

/-- Settles O20: in `ABSORB` TAIL leaves the state of its rule, whose two accumulators are the loops of R81. -/
theorem tailMixesLanes : Obligations.TailMixesLanes := by
  intro bytes s h _
  rw [exec_tail_of_absorb h, absorbTail_eq, tailMix, tailK1_eq_loop, tailK2_eq_loop]

/-! ### TAIL and FINAL words (R90) -/

theorem decode_tail_word (tlen : BitVec 4) (data : Data) :
    decode (mkCmd 3 tlen data) = .ok (.tail (lanes data tlen.toNat)) := by
  rw [decode_op3 (cmdOp_mkCmd 3 tlen data), cmdData_mkCmd, cmdTlen_mkCmd]

theorem decode_final_word (data : Data) : decode (mkCmd 4 0 data) = .ok .final :=
  decode_is_final_iff.mpr ⟨cmdOp_mkCmd 4 0 data, cmdTlen_mkCmd 4 0 data⟩

theorem lanes_congr_byteLane {d d' : Data} {n : Nat} (h : ∀ j < n, byteLane d j = byteLane d' j) :
    lanes d n = lanes d' n :=
  List.map_congr_left fun j hj => h j (List.mem_range.mp hj)

theorem decode_tail_word_congr {tlen : BitVec 4} {d d' : Data} (h : ∀ j < tlen.toNat, byteLane d j = byteLane d' j) :
    decode (mkCmd 3 tlen d) = decode (mkCmd 3 tlen d') := by
  rw [decode_tail_word, decode_tail_word, lanes_congr_byteLane h]

/-- A TAIL of no byte folds nothing, mixes neither lane and adds 0 to `LEN`. -/
theorem absorbTail_nil (s : State) : absorbTail [] s = { s with phase := .tailed } := by
  rw [absorbTail_eq, tailMix_nil, List.length_nil, BitVec.add_zero]

theorem accept_empty_tail {s : State} (h : s.phase = .absorb) (data : Data) :
    accept (mkCmd 3 0 data) s = .next { s with phase := .tailed } :=
  calc accept (mkCmd 3 0 data) s
    _ = exec (.tail []) s := accept_of_decode (decode_tail_word 0 data) s
    _ = .next (absorbTail [] s) := exec_tail_of_absorb h []
    _ = .next { s with phase := .tailed } := by rw [absorbTail_nil]

theorem accept_final_of_open {s : State} (h : s.phase = .absorb ∨ s.phase = .tailed) (data : Data) :
    accept (mkCmd 4 0 data) s = .next (finishMessage s) :=
  (accept_of_decode (decode_final_word data) s).trans (exec_final_of_open h)

/-- Settles O21: the decoder reads only the lanes below `tlen`, an empty TAIL leaves `absorbTail []`, and FINAL is legal in
`ABSORB`. -/
theorem unusedLanesAndEmptyTail : Obligations.UnusedLanesAndEmptyTail :=
  ⟨fun _ _ _ s h => accept_congr (decode_tail_word_congr h) s, fun data _ h => accept_empty_tail h data,
    fun data s h => ⟨finishMessage s, accept_final_of_open (.inl h) data, finishMessage_phase s⟩⟩

end Sys2Proof.Machine

/-! SUPPORT. How the state FINAL leaves shows its result (spec/43_finalizer.md R94, R95, R98). -/

namespace Sys2Proof.Machine

/-! ### The avalanche mix (R95) -/

/-- Settles O13: `fmix64` is `xorShift33` and a multiplication by a constant, in turn, and its values follow by evaluation. -/
theorem avalanche : Obligations.Avalanche :=
  ⟨fun _ => by simp only [fmix64, xorShift33], by decide, by decide, by decide, by decide⟩

/-! ### FINAL (R94, R98) -/

/-- The state FINAL leaves shows `H1` as its result, on the read and on `res_data` (R98). -/
theorem finishMessage_readResult (s : State) : (finishMessage s).readResult = .ok (finalize s.h1 s.h2 s.len).1 := by
  rw [State.readResult_of_done (finishMessage_phase s), finishMessage_result]

theorem finishMessage_resData (s : State) : (finishMessage s).resData = (finalize s.h1 s.h2 s.len).1 := by
  rw [State.resData_of_done (finishMessage_phase s), finishMessage_result]

theorem finishMessage_resValid (s : State) : (finishMessage s).resValid = true :=
  (State.resValid_iff _).mpr (finishMessage_phase s)

/-- Settles O22: FINAL is legal in `ABSORB` and `TAILED` and leaves `finishMessage`, whose lanes are the steps of R94. -/
theorem finalProducesResult : Obligations.FinalProducesResult := by
  intro s h
  refine ⟨finishMessage s, exec_final_of_open h, ?_, ?_, ?_, finishMessage_resValid s⟩
  · rw [finishMessage_eq, finalize_eq]
  · rw [finishMessage_readResult, finalize_eq]
  · rw [finishMessage_resData, finalize_eq]

end Sys2Proof.Machine

/-! SUPPORT. What each command leaves in `PHASE` and `CAUSE`, what an accepted word does inside and outside `ERROR`, and the way
out of `ERROR` (spec/60_exceptions.md R105 to R113). -/

namespace Sys2Proof.Machine

section

variable {s t : State} {i : Instr} {w : Cmd}

/-! ### The gate, by the entry of the table (R106) -/

theorem exec_of_ok (h : legality i.command s.phase = .ok) : exec i s = .next (ruleOf i s) :=
  (exec_eq_gated i s).trans (gated_of_ok h)

theorem exec_of_seq (h : legality i.command s.phase = .seq) : exec i s = .next (s.inError .sequence) := by
  rw [exec_eq_gated, gated_of_seq h, raiseError_eq]

theorem exec_of_ignored (h : legality i.command s.phase = .ignored) : exec i s = .next s :=
  (exec_eq_gated i s).trans (gated_of_ignored h)

/-! ### `PHASE` and `CAUSE` after a command -/

/-- `PHASE` after the rule of a command: "the resulting phase after ok" (R106). -/
def rulePhase : Command → Phase → Phase
  | .nop, p => p
  | .init, _ => .absorb
  | .block, p => p
  | .tail, _ => .tailed
  | .final, _ => .done

/-- `CAUSE` after the rule of a command: INIT clears it, and no other command writes it (R21). -/
def ruleCause : Command → Cause → Cause
  | .init, _ => .none
  | .nop, c => c
  | .block, c => c
  | .tail, c => c
  | .final, c => c

theorem ruleOf_phase (i : Instr) (s : State) : (ruleOf i s).phase = rulePhase i.command s.phase := by
  cases i with
  | nop => rfl
  | init seed => exact openMessage_phase seed s
  | block k1 k2 => exact absorbBlock_phase k1 k2 s
  | tail bytes => exact absorbTail_phase bytes s
  | final => exact finishMessage_phase s

theorem ruleOf_cause (i : Instr) (s : State) : (ruleOf i s).cause = ruleCause i.command s.cause := by
  cases i with
  | nop => rfl
  | init seed => exact openMessage_cause seed s
  | block k1 k2 => exact absorbBlock_cause k1 k2 s
  | tail bytes => exact absorbTail_cause bytes s
  | final => exact finishMessage_cause s

/-- A command the table gives "ok" does not lead to `ERROR`: of the two that keep `PHASE`, NOP is ignored in `ERROR` and BLOCK is
legal in `ABSORB` only. -/
theorem rulePhase_ne_error {c : Command} {p : Phase} (h : legality c p = .ok) : rulePhase c p ≠ .error := by
  cases c with
  | nop => rintro rfl; exact nomatch h
  | block => rintro rfl; exact nomatch h
  | init | tail | final => exact nofun

/-- `PHASE` after a command, from the command and `PHASE` alone (R113). -/
def nextPhase (c : Command) (p : Phase) : Phase :=
  match legality c p with
  | .ok => rulePhase c p
  | .seq => .error
  | .ignored => p

/-- `CAUSE` after a command, from the command, `PHASE` and `CAUSE` alone (R113). -/
def nextCause (c : Command) (p : Phase) (cause : Cause) : Cause :=
  match legality c p with
  | .ok => ruleCause c cause
  | .seq => .sequence
  | .ignored => cause

theorem exec_phase (h : exec i s = .next t) : t.phase = nextPhase i.command s.phase := by
  obtain ⟨hl, rfl⟩ | ⟨hl, rfl⟩ | ⟨hl, rfl⟩ := exec_cases h
  · rw [nextPhase, hl, ruleOf_phase]
  · rw [nextPhase, hl, State.raiseError_phase]
  · rw [nextPhase, hl]

theorem exec_cause (h : exec i s = .next t) : t.cause = nextCause i.command s.phase s.cause := by
  obtain ⟨hl, rfl⟩ | ⟨hl, rfl⟩ | ⟨hl, rfl⟩ := exec_cases h
  · rw [nextCause, hl, ruleOf_cause]
  · rw [nextCause, hl, State.raiseError_cause]
  · rw [nextCause, hl]

/-! ### A word accepted outside `ERROR` (R108, R109) -/

/-- Outside `ERROR` a word either does not enter it or enters it by one of the two raises. -/
theorem accept_outside_error (hp : s.phase ≠ .error) (h : accept w s = .next t) :
    t.phase ≠ .error ∨ t = s.inError .illegal ∨ t = s.inError .sequence := by
  obtain ⟨i, -, hexec⟩ | ⟨r, hw, -⟩ := accept_cases h
  · obtain ⟨hl, rfl⟩ | ⟨-, rfl⟩ | ⟨hl, -⟩ := exec_cases hexec
    · exact .inl (ruleOf_phase i s ▸ rulePhase_ne_error hl)
    · exact .inr (.inr (raiseError_eq .sequence s))
    · exact absurd (error_of_ignored hl) hp
  · have hraise := h.symm.trans (accept_reject_raises hw hp)
    exact .inr (.inl (Host.Outcome.next.inj hraise))

/-! ### A word accepted in `ERROR` (R110, R111) -/

theorem command_eq_init_iff : i.command = .init ↔ ∃ seed, i = .init seed := by
  cases i <;> simp [Instr.command]

/-- In `ERROR` every word but a legally encoded INIT is ignored (R110). -/
theorem accept_ignored_of_error (hp : s.phase = .error) (hw : ∀ seed, decode w ≠ .ok (.init seed)) :
    accept w s = .next s := by
  cases hd : decode w with
  | error r => rw [accept_of_reject hd, acceptIllegal, if_pos hp]
  | ok i =>
    have hne : i.command ≠ .init := fun hi => by
      obtain ⟨seed, rfl⟩ := command_eq_init_iff.mp hi
      exact hw seed hd
    rw [accept_of_decode hd, exec_of_ignored (hp ▸ legality_error hne)]

/-- In `ERROR` a stream without a legally encoded INIT is ignored: each word leaves the state in `ERROR` for the next. -/
theorem acceptAll_ignored_of_error (hp : s.phase = .error) {ws : List Cmd}
    (hws : ∀ v ∈ ws, ∀ seed, decode v ≠ .ok (.init seed)) : acceptAll ws s = .next s := by
  induction ws with
  | nil => rfl
  | cons v vs ih =>
    obtain ⟨hv, hvs⟩ := List.forall_mem_cons.mp hws
    rw [acceptAll, accept_ignored_of_error hp hv, andThen_next, ih hvs]

theorem accept_of_init {seed : BitVec 32} (h : decode w = .ok (.init seed)) (s : State) :
    accept w s = .next (openMessage seed s) :=
  (accept_of_decode h s).trans (exec_init seed s)

/-- A word that leaves `ERROR` is an INIT that opens a message. -/
theorem accept_leaves_error (hp : s.phase = .error) (h : accept w s = .next t) (ht : t.phase ≠ .error) :
    ∃ seed, decode w = .ok (.init seed) ∧ t = openMessage seed s := by
  by_cases hw : ∃ seed, decode w = .ok (.init seed)
  · obtain ⟨seed, hseed⟩ := hw
    exact ⟨seed, hseed, Host.Outcome.next.inj (h.symm.trans (accept_of_init hseed s))⟩
  · have hstay : t = s := Host.Outcome.next.inj (h.symm.trans (accept_ignored_of_error hp (not_exists.mp hw)))
    exact absurd (hstay ▸ hp) ht

theorem clockEdge_of_rst {e : Edge} (h : e.rst = true) (s : State) : clockEdge e s = .next s.resetEdge :=
  if_pos h

/-! ### Error entry (R107) -/

theorem State.raiseError_illegal_status (s : State) : (s.raiseError .illegal).status = 0x114 := by
  simp [State.status, State.err, State.resValid, Phase.code, Cause.code]

theorem State.raiseError_resValid (c : Cause) (s : State) : (s.raiseError c).resValid = false := by
  simp [State.resValid]

theorem State.raiseError_readResult (c : Cause) (s : State) :
    (s.raiseError c).readResult = .error .resultHoldsNoValue :=
  State.readResult_of_not_done (by rw [State.raiseError_phase]; exact nofun)

end

/-- Settles O23, row by row of the table: the command's rule where it is legal, `exec_of_seq` and `exec_of_ignored` elsewhere. -/
theorem legalityTable : Obligations.LegalityTable := by
  intro s seed k1 k2 bytes
  have hinit : ∃ t, exec (.init seed) s = .next t ∧ t.phase = .absorb :=
    ⟨openMessage seed s, exec_init seed s, openMessage_phase seed s⟩
  have hfinal (h : s.phase = .absorb ∨ s.phase = .tailed) : ∃ t, exec .final s = .next t ∧ t.phase = .done :=
    ⟨finishMessage s, exec_final_of_open h, finishMessage_phase s⟩
  refine ⟨exec_nop s, hinit, fun h => ⟨?_, ?_, hfinal (.inl h)⟩, fun h => ⟨?_, ?_, hfinal (.inr h)⟩,
    fun h => ?_, fun h => ⟨?_, ?_, ?_⟩⟩
  · exact ⟨absorbBlock k1 k2 s, exec_block_of_absorb h k1 k2, (absorbBlock_phase k1 k2 s).trans h⟩
  · exact ⟨absorbTail bytes s, exec_tail_of_absorb h bytes, absorbTail_phase bytes s⟩
  · exact exec_of_seq (h ▸ rfl)
  · exact exec_of_seq (h ▸ rfl)
  · obtain h | h := h <;> exact ⟨exec_of_seq (h ▸ rfl), exec_of_seq (h ▸ rfl), exec_of_seq (h ▸ rfl)⟩
  all_goals exact exec_of_ignored (h ▸ rfl)

/-- Settles O28: each check of R109 is one lemma, and a command the table gives "ok" leaves the phase of its rule. -/
theorem errorPriority : Obligations.ErrorPriority := by
  refine fun w s => ⟨accept_ignored_of_error, fun hp r hw => accept_reject_raises hw hp, fun i hw hl => ?_,
    fun i hw hl => ⟨accept_of_decode hw s, ruleOf i s, ?_, ?_⟩⟩
  · rw [accept_of_decode hw, exec_of_seq hl]
  · rw [accept_of_decode hw, exec_of_ok hl]
  · rw [ruleOf_phase]
    exact rulePhase_ne_error hl

/-- Settles O29: the word entered `ERROR` by one of the two raises, and in `ERROR` a stream without INIT is ignored. -/
theorem errorsArePrecise : Obligations.ErrorsArePrecise := by
  intro w s t hp h ht
  refine ⟨?_, fun _ => acceptAll_ignored_of_error ht⟩
  obtain hne | rfl | rfl := accept_outside_error hp h
  · exact absurd ht hne
  · exact ⟨rfl, .inl rfl⟩
  · exact ⟨rfl, .inr rfl⟩

/-- Settles O30: an edge out of `ERROR` is a reset edge or accepts an INIT, for an ignored word and an idle edge stay in it. -/
theorem errorIsLeftByInitOrResetOnly : Obligations.ErrorIsLeftByInitOrResetOnly := by
  intro e s t hp h
  refine ⟨fun ht => ?_, fun hrst => ?_, fun hacc seed hw => ?_⟩
  · obtain ⟨hrst, rfl⟩ | ⟨-, hacc, hword⟩ | ⟨-, -, rfl⟩ := clockEdge_cases h
    · exact .inl ⟨hrst, State.resetEdge_phase s⟩
    · obtain ⟨seed, hw, rfl⟩ := accept_leaves_error hp hword ht
      exact .inr ⟨hacc, seed, hw, openMessage_phase seed s, openMessage_cause seed s, openMessage_h1 seed s,
        openMessage_h2 seed s, openMessage_len seed s⟩
    · exact absurd hp ht
  · rw [clockEdge_of_rst hrst] at h
    exact Host.Outcome.next.inj h ▸ State.resetEdge_phase s
  · rw [clockEdge_of_accepts hacc, accept_of_init hw] at h
    exact Host.Outcome.next.inj h ▸ openMessage_phase seed s

/-- Settles O31: `nextPhase` and `nextCause` read the command, `PHASE` and `CAUSE`, on which the two runs agree. -/
theorem errorsDoNotDependOnData : Obligations.ErrorsDoNotDependOnData := by
  intro w w' i i' s s' t t' hw hw' hcommand hphase h h'
  rw [accept_of_decode hw] at h
  rw [accept_of_decode hw'] at h'
  refine ⟨?_, fun hcause => ?_⟩
  · rw [exec_phase h, exec_phase h', hcommand, hphase]
  · rw [exec_cause h, exec_cause h', hcommand, hphase, hcause]

/-- Settles O26: error entry as a whole state, and the flags and `STATUS` of its `PHASE` and `CAUSE`. -/
theorem errorEntry : Obligations.ErrorEntry :=
  fun c s => ⟨raiseError_eq c s, (State.err_iff _).mpr (State.raiseError_phase c s), State.raiseError_resValid c s,
    State.raiseError_readResult c s, s.raiseError_illegal_status, s.raiseError_sequence_status⟩

/-- Settles O27: the second check of R109. -/
theorem illegalWordRaises : Obligations.IllegalWordRaises :=
  fun _ _ _ hw hp => accept_reject_raises hw hp

end Sys2Proof.Machine

/-! SUPPORT. A clock on which a host holds a stream of words: what is accepted by each of its edges
(spec/70_reset_and_hazards.md R127 to R129, R134). -/

namespace Sys2Proof.Machine

/-- By edge `n` of the clock exactly the words `vs` are accepted, in order, and no reset has come. -/
structure AcceptedBy (clock : Clock) (n : Nat) (vs : List Cmd) : Prop where
  words : acceptedWords (firstEdges clock n) = vs
  no_reset : noReset (firstEdges clock n) = true

section
variable {clock : Clock} {n : Nat} {vs us : List Cmd} {w : Cmd}

theorem AcceptedBy.zero (clock : Clock) : AcceptedBy clock 0 [] := ⟨rfl, rfl⟩

theorem noReset_firstEdges_succ (h : noReset (firstEdges clock n) = true) (hrst : (clock n).rst = false) :
    noReset (firstEdges clock (n + 1)) = true := by
  simpa [firstEdges_succ, noReset, hrst] using h

/-- An accepting edge adds its word. -/
theorem AcceptedBy.succ_of_accepts (h : AcceptedBy clock n vs) (hacc : (clock n).accepts = true) :
    AcceptedBy clock (n + 1) (vs ++ [(clock n).word]) where
  words := by
    rw [firstEdges_succ, acceptedWords_append, h.words, acceptedWords_cons_of_accepts hacc, acceptedWords_nil]
  no_reset := noReset_firstEdges_succ h.no_reset (rst_of_accepts hacc)

/-- An idle edge adds nothing. -/
theorem AcceptedBy.succ_of_not_accepts (h : AcceptedBy clock n vs) (hrst : (clock n).rst = false)
    (hacc : (clock n).accepts = false) : AcceptedBy clock (n + 1) vs where
  words := by
    rw [firstEdges_succ, acceptedWords_append, h.words, acceptedWords_cons_of_not_accepts hacc, acceptedWords_nil,
      List.append_nil]
  no_reset := noReset_firstEdges_succ h.no_reset hrst

/-- With no reset, what the edges do is what the words accepted at them do (R44). -/
theorem AcceptedBy.runEdges_eq (h : AcceptedBy clock n vs) (s : State) :
    runEdges (firstEdges clock n) s = acceptAll vs s := by
  rw [edgesRunTheAcceptedWords _ s h.no_reset, h.words]

/-- A host with the words `vs` accepted offers the next one, and no reset comes (R128). -/
theorem AcceptedBy.offers_next (h : AcceptedBy clock n vs) (hoffer : offersStream (vs ++ w :: us) clock) :
    (clock n).rst = false ∧ (clock n).cmdValid = true ∧ (clock n).word = w :=
  hoffer n w (by simp [acceptedBefore, h.words])

/-- An offered word is accepted at the latest when `cmd_ready` is 1 again, here within `d` edges: until then the host holds it, so
each edge either accepts it or is idle (R127, R128). -/
theorem AcceptedBy.next_of_ready {d : Nat} (h : AcceptedBy clock n vs) (hoffer : offersStream (vs ++ w :: us) clock)
    (hrises : (clock (n + d)).rst = true ∨ (clock (n + d)).ready = true) :
    ∃ m, AcceptedBy clock m (vs ++ [w]) := by
  induction d generalizing n with
  | zero =>
    obtain ⟨hrst, hvalid, hword⟩ := h.offers_next hoffer
    have hready : (clock n).ready = true := hrises.resolve_left (by simp [hrst])
    have hacc : (clock n).accepts = true := by simp [Edge.accepts, hrst, hvalid, hready]
    exact ⟨n + 1, hword ▸ h.succ_of_accepts hacc⟩
  | succ d ih =>
    obtain ⟨hrst, -, hword⟩ := h.offers_next hoffer
    cases hacc : (clock n).accepts with
    | true => exact ⟨n + 1, hword ▸ h.succ_of_accepts hacc⟩
    | false =>
      have hlater : n + (d + 1) = n + 1 + d := by omega
      exact ih (h.succ_of_not_accepts hrst hacc) (hlater ▸ hrises)

/-- From any edge on, the rest of an offered stream is accepted in finitely many cycles, by induction on what is left of it:
the guarantee of R129 brings in one word after the other. -/
theorem AcceptedBy.rest_of_stream (hrises : readyRisesAgain clock) (h : AcceptedBy clock n vs)
    (hoffer : offersStream (vs ++ us) clock) : ∃ m, AcceptedBy clock m (vs ++ us) := by
  induction us generalizing vs n with
  | nil => exact ⟨n, by rwa [List.append_nil]⟩
  | cons w us ih =>
    obtain ⟨k, hk, hrise⟩ := hrises n
    obtain ⟨d, rfl⟩ := Nat.exists_eq_add_of_le hk
    obtain ⟨m, hm⟩ := h.next_of_ready hoffer hrise
    rw [List.append_cons] at hoffer ⊢
    exact ih hm hoffer

end

/-- Settles O52: the stream is what is left of it at edge 0, and no reset comes before its last word is accepted. -/
theorem heldStreamCompletes : Obligations.HeldStreamCompletes := by
  intro clock ws hrises hoffer
  obtain ⟨n, hn⟩ := (AcceptedBy.zero clock).rest_of_stream hrises hoffer
  refine ⟨n, hn.words, fun s => ?_⟩
  obtain ⟨t, ht⟩ := acceptAll_next ws s
  exact ⟨t, ht, (hn.runEdges_eq s).trans ht⟩

end Sys2Proof.Machine

/-! SUPPORT. The encoder and the opcode map against the decoder (spec/30_encoding.md R48 to R56). -/

namespace Sys2Proof.Machine

/-! ### The operands of a word (R51 to R54) -/

theorem lanes_getD (data : Data) {n j : Nat} (hj : j < n) : (lanes data n).getD j 0 = byteLane data j := by
  simp [lanes, hj]

theorem byteLane_getLsbD (data : Data) (j : Nat) {b : Nat} (hb : b < 8) :
    (byteLane data j).getLsbD b = data.getLsbD (8 * j + b) := by
  simp [byteLane, hb]

theorem seedOf_getLsbD (data : Data) {j : Nat} (hj : j < 32) : (seedOf data).getLsbD j = data.getLsbD j := by
  simp [seedOf, hj]

/-- Packing lanes gives back the bits of the lanes packed. -/
theorem packBytes_lanes_getLsbD (data : Data) {n j : Nat} (hn : n ≤ 16) (hj : j < 8 * n) :
    (packBytes (lanes data n)).getLsbD j = data.getLsbD j := by
  have hsplit : 8 * (j / 8) + j % 8 = j := by omega
  rw [packBytes_getLsbD _ _ (by omega), lanes_getD data (by omega), byteLane_getLsbD data _ (by omega), hsplit]

theorem packBytes_lanes (data : Data) : packBytes (lanes data 16) = data :=
  BitVec.eq_of_getLsbD_eq fun _ hi => packBytes_lanes_getLsbD data (Nat.le_refl 16) hi

theorem wellFormed_tail_iff {bytes : List Byte} : (Instr.tail bytes).wellFormed = true ↔ bytes.length ≤ 15 :=
  decide_eq_true_iff

/-- `tlen` holds the number of bytes of a well-formed TAIL (R50). -/
theorem tlen_toNat {n : Nat} (h : n ≤ 15) : (BitVec.ofNat 4 n).toNat = n :=
  Nat.mod_eq_of_lt (by omega)

/-- Settles O3: each word decodes to its command, with `seedOf`, `k1Of`, `k2Of` and the lanes as the operands. -/
theorem operandsAreDataFields : Obligations.OperandsAreDataFields :=
  fun data => ⟨decode_init_word data, decode_block_word data,
    fun tlen => ⟨lanes data tlen.toNat, decode_tail_word tlen data, lanes_length data tlen.toNat,
      fun _ hj => lanes_getD data hj⟩,
    decode_nop_word data, decode_final_word data⟩

/-! ### The encoder (R48, R63) -/

/-- Settles O8: the fields of the encoded word are the operands, and a well-formed TAIL has all its bytes in its lanes. -/
theorem decodeEncodeRoundTrip : Obligations.DecodeEncodeRoundTrip := by
  intro i hi
  cases i with
  | nop => exact decode_nop_word 0
  | init seed => rw [encode, decode_init_word, seedOf_setWidth]
  | block k1 k2 => rw [encode, decode_block_word, k1Of_blockData, k2Of_blockData]
  | tail bytes =>
    have hlen : bytes.length ≤ 15 := wellFormed_tail_iff.mp hi
    rw [encode, decode_tail_word, tlen_toNat hlen, lanes_packBytes bytes (by omega)]
  | final => exact decode_final_word 0

theorem cmdOp_encode (i : Instr) : cmdOp (encode i) = i.command.opcode := by
  cases i <;> exact cmdOp_mkCmd ..

theorem cmdTlen_encode_of_ne_tail {i : Instr} (h : i.command ≠ .tail) : cmdTlen (encode i) = 0 := by
  cases i with
  | tail bytes => exact absurd rfl h
  | nop | init | block | final => exact cmdTlen_mkCmd ..

/-- What an INIT word decodes to. -/
theorem seed_of_decode {w : Cmd} {seed : BitVec 32} (h : decode w = .ok (.init seed)) : seed = seedOf (cmdData w) := by
  rw [decode_op1 (decode_ok_header h).1] at h
  exact (Instr.init.inj (needTlenZero_eq_ok h).2).symm

/-- What a BLOCK word decodes to. -/
theorem words_of_decode {w : Cmd} {k1 k2 : Word} (h : decode w = .ok (.block k1 k2)) :
    k1 = k1Of (cmdData w) ∧ k2 = k2Of (cmdData w) := by
  rw [decode_op2 (decode_ok_header h).1] at h
  obtain ⟨h1, h2⟩ := Instr.block.inj (needTlenZero_eq_ok h).2
  exact ⟨h1.symm, h2.symm⟩

/-- What a TAIL word decodes to. -/
theorem bytes_of_decode {w : Cmd} {bytes : List Byte} (h : decode w = .ok (.tail bytes)) :
    bytes = lanes (cmdData w) (cmdTlen w).toNat := by
  rw [decode_op3 (decode_ok_header h).1] at h
  exact (Instr.tail.inj (Except.ok.inj h)).symm

theorem cmdTlen_toNat_le (w : Cmd) : (cmdTlen w).toNat ≤ 15 :=
  Nat.le_of_lt_succ (cmdTlen w).isLt

/-- The decoder gives well-formed instructions only: `tlen` is at most 15 (R50). -/
theorem wellFormed_of_decode {w : Cmd} {i : Instr} (h : decode w = .ok i) : i.wellFormed = true := by
  cases i with
  | tail bytes => rw [wellFormed_tail_iff, bytes_of_decode h, lanes_length]; exact cmdTlen_toNat_le w
  | nop | init | block | final => rfl

theorem cmdTlen_encode_of_decode {w : Cmd} {i : Instr} (h : decode w = .ok i) : cmdTlen (encode i) = cmdTlen w := by
  by_cases hi : i.command = .tail
  · cases i with
    | tail bytes => rw [encode, cmdTlen_mkCmd, bytes_of_decode h, lanes_length, BitVec.ofNat_toNat, BitVec.setWidth_eq]
    | nop | init | block | final => exact nomatch hi
  · rw [cmdTlen_encode_of_ne_tail hi, (decode_ok_header h).2 hi]

/-- The encoder writes the data bits the command reads as the word had them (R52 to R54). -/
theorem cmdData_encode_of_decode {w : Cmd} {i : Instr} (h : decode w = .ok i) {j : Nat} (hj : j < readBits i) :
    (cmdData (encode i)).getLsbD j = (cmdData w).getLsbD j := by
  cases i with
  | nop => exact absurd hj (Nat.not_lt_zero j)
  | init seed =>
    have h32 : j < 32 := hj
    rw [encode, cmdData_mkCmd, seed_of_decode h, BitVec.getLsbD_setWidth, seedOf_getLsbD _ h32, decide_eq_true (by omega),
      Bool.true_and]
  | block k1 k2 =>
    obtain ⟨rfl, rfl⟩ := words_of_decode h
    rw [encode, cmdData_mkCmd, blockData_fields]
  | tail bytes =>
    obtain rfl := bytes_of_decode h
    rw [readBits, lanes_length] at hj
    rw [encode, cmdData_mkCmd, packBytes_lanes_getLsbD _ (Nat.le_succ_of_le (cmdTlen_toNat_le w)) hj]
  | final => exact absurd hj (Nat.not_lt_zero j)

/-- Settles O9: header and data of the encoded word, each by its lemma. -/
theorem encodeKeepsTheBitsRead : Obligations.EncodeKeepsTheBitsRead :=
  fun _ i h => ⟨wellFormed_of_decode h, (cmdOp_encode i).trans (decode_ok_header h).1.symm, cmdTlen_encode_of_decode h,
    fun _ hj => cmdData_encode_of_decode h hj⟩

/-- Settles O1: ten closed words, decoded. -/
theorem writtenOutWordsDecode : Obligations.WrittenOutWordsDecode := by
  unfold Obligations.WrittenOutWordsDecode
  decide

/-! ### The opcode map (R55) -/

theorem opcode_injective {c d : Command} (h : c.opcode = d.opcode) : c = d := by
  cases c <;> cases d <;> revert h <;> decide

theorem cmdOp_toNat (w : Cmd) : (cmdOp w).toNat = w.toNat % 16 := by
  simp [cmdOp]

theorem cmdTlen_toNat (w : Cmd) : (cmdTlen w).toNat = w.toNat / 16 % 16 := by
  simp [cmdTlen, Nat.shiftRight_eq_div_pow]

/-- A row with mask `0x0F` compares `op` alone. -/
theorem selects_op_iff (c : Command) (op : BitVec 4) (w : Cmd) :
    (OpcodeRow.mk c (op.setWidth 136) 0x0F).selects w = true ↔ cmdOp w = op := by
  have hmask : (w &&& 0x0F).toNat = (cmdOp w).toNat := by
    rw [cmdOp_toNat, BitVec.toNat_and]
    exact Nat.and_two_pow_sub_one_eq_mod w.toNat 4
  have hbits : (op.setWidth 136).toNat = op.toNat := BitVec.toNat_setWidth_of_le (by omega)
  rw [OpcodeRow.selects, beq_iff_eq, ← BitVec.toNat_inj, hmask, hbits, BitVec.toNat_inj]

/-- A row with mask `0xFF` compares `op`, and demands a zero `tlen`. -/
theorem selects_op_tlen_iff (c : Command) (op : BitVec 4) (w : Cmd) :
    (OpcodeRow.mk c (op.setWidth 136) 0xFF).selects w = true ↔ cmdOp w = op ∧ cmdTlen w = 0 := by
  have hmask : (w &&& 0xFF).toNat = w.toNat % 256 := by
    rw [BitVec.toNat_and]
    exact Nat.and_two_pow_sub_one_eq_mod w.toNat 8
  have hbits : (op.setWidth 136).toNat = op.toNat := BitVec.toNat_setWidth_of_le (by omega)
  have hop : op.toNat < 16 := op.isLt
  rw [OpcodeRow.selects, beq_iff_eq, ← BitVec.toNat_inj, ← BitVec.toNat_inj, ← BitVec.toNat_inj, hmask, hbits, cmdOp_toNat,
    cmdTlen_toNat]
  change w.toNat % 256 = op.toNat ↔ w.toNat % 16 = op.toNat ∧ w.toNat / 16 % 16 = 0
  omega

/-- A row of the map selects the words with its command's `op`, and with a zero `tlen` unless it is TAIL's. -/
theorem row_selects_iff {row : OpcodeRow} (h : row ∈ opcodeTable) (w : Cmd) :
    row.selects w = true ↔ cmdOp w = row.command.opcode ∧ (row.command ≠ .tail → cmdTlen w = 0) := by
  fin_cases h
  · simpa [Command.opcode] using selects_op_tlen_iff .nop 0 w
  · simpa [Command.opcode] using selects_op_tlen_iff .init 1 w
  · simpa [Command.opcode] using selects_op_tlen_iff .block 2 w
  · simpa [Command.opcode] using selects_op_iff .tail 3 w
  · simpa [Command.opcode] using selects_op_tlen_iff .final 4 w

theorem exists_row (c : Command) : ∃ row ∈ opcodeTable, row.command = c := by
  cases c <;> decide

theorem row_of_command : ∀ a ∈ opcodeTable, ∀ b ∈ opcodeTable, a.command = b.command → a = b := by
  decide

/-- A word with a command's header is that command. -/
theorem decode_of_header {w : Cmd} {c : Command} (hop : cmdOp w = c.opcode) (htlen : c ≠ .tail → cmdTlen w = 0) :
    ∃ i, decode w = .ok i ∧ i.command = c := by
  cases hd : decode w with
  | ok i => exact ⟨i, rfl, opcode_injective ((decode_ok_header hd).1.symm.trans hop)⟩
  | error r =>
    obtain h5 | ⟨h3, ht⟩ := decode_rejects_iff.mp ⟨r, hd⟩
    · exact absurd h5 (hop ▸ Nat.not_le.mpr c.opcode_lt_five)
    · exact absurd (htlen fun hc => h3 (hop.trans (Command.opcode_eq_three.mpr hc))) ht

/-- Settles O5: decoder and map both go by the header. -/
theorem decoderFollowsOpcodeTable : Obligations.DecoderFollowsOpcodeTable := by
  refine fun w => ⟨fun row hrow hsel => ?_, fun hnone => ?_, fun a ha b hb hsa hsb => ?_⟩
  · obtain ⟨hop, htlen⟩ := (row_selects_iff hrow w).mp hsel
    exact decode_of_header hop htlen
  · cases hd : decode w with
    | error r => exact ⟨r, rfl⟩
    | ok i =>
      obtain ⟨row, hrow, hc⟩ := exists_row i.command
      have hsel : row.selects w = true := (row_selects_iff hrow w).mpr (hc ▸ decode_ok_header hd)
      exact absurd (hnone row hrow) (by simp [hsel])
  · obtain ⟨hopa, -⟩ := (row_selects_iff ha w).mp hsa
    obtain ⟨hopb, -⟩ := (row_selects_iff hb w).mp hsb
    exact row_of_command a ha b hb (opcode_injective (hopa.symm.trans hopb))

end Sys2Proof.Machine

/-! SUPPORT. The invariant, the frame of every command, and which edges change the flags (spec/10_state.md R20 to R24,
spec/41_block_mixer.md R77, spec/43_finalizer.md R98, R99). -/

namespace Sys2Proof.Machine

section
variable {s t : State} {i : Instr} {w : Cmd} {e : Edge}

/-! ### The invariant -/

/-- A command that the table gives "ok" leaves `CAUSE` zero: INIT clears it, and the others are legal only outside `ERROR`,
where it is zero already. -/
theorem ruleCause_code {c : Command} {p : Phase} {cause : Cause} (hl : legality c p = .ok)
    (h : cause.code ≠ 0 ↔ p = .error) : (ruleCause c cause).code = 0 := by
  by_cases hc : c = .init
  · subst hc
    rfl
  · have hp : p ≠ .error := by
      rintro rfl
      exact nomatch hl.symm.trans (legality_error hc)
    have hcode : cause.code = 0 := not_ne_iff.mp fun hne => hp (h.mp hne)
    cases c with
    | init => exact absurd rfl hc
    | nop | block | tail | final => exact hcode

theorem ruleOf_keeps_causeMatchesPhase (hl : legality i.command s.phase = .ok) (h : s.causeMatchesPhase) :
    (ruleOf i s).causeMatchesPhase := by
  have hphase : (ruleOf i s).phase ≠ .error := ruleOf_phase i s ▸ rulePhase_ne_error hl
  have hcause : (ruleOf i s).cause.code = 0 := ruleOf_cause i s ▸ ruleCause_code hl h
  exact iff_of_false (not_ne_iff.mpr hcause) hphase

/-- FINAL writes `RESULT` and `H1` alike; no other command that runs leaves `DONE`, but a NOP in it. -/
theorem ruleOf_keeps_resultIsLane (hl : legality i.command s.phase = .ok) (h : s.resultIsLane) :
    (ruleOf i s).resultIsLane := by
  intro hdone
  cases i with
  | nop => exact h hdone
  | init seed => exact nomatch (openMessage_phase seed s).symm.trans hdone
  | block k1 k2 =>
    have hs : s.phase = .done := (absorbBlock_phase k1 k2 s).symm.trans hdone
    rw [hs] at hl
    exact nomatch hl
  | tail bytes => exact nomatch (absorbTail_phase bytes s).symm.trans hdone
  | final => exact (finishMessage_result s).trans (finishMessage_h1 s).symm

/-- `LEN` starts at 0 and each BLOCK adds 16, which divides 2^64, so the wrap does no harm. -/
theorem ruleOf_keeps_lenInBlocks (h : s.lenInBlocks) : (ruleOf i s).lenInBlocks := by
  intro habsorb
  cases i with
  | nop => exact h habsorb
  | init seed => rw [ruleOf, openMessage_len]; rfl
  | block k1 k2 =>
    have hlen : s.len.toNat % 16 = 0 := h ((absorbBlock_phase k1 k2 s).symm.trans habsorb)
    rw [ruleOf, absorbBlock_len, BitVec.toNat_add, BitVec.toNat_ofNat, Config.blockBytes]
    omega
  | tail bytes => exact nomatch (absorbTail_phase bytes s).symm.trans habsorb
  | final => exact nomatch (finishMessage_phase s).symm.trans habsorb

theorem State.raiseError_inv {c : Cause} (hc : c.code ≠ 0) (s : State) : (s.raiseError c).Inv := by
  simpa [State.Inv, State.causeMatchesPhase] using hc

theorem State.resetEdge_inv (s : State) : s.resetEdge.Inv := by
  simp [State.Inv, State.causeMatchesPhase, Cause.code]

theorem exec_keeps_inv (hs : s.Inv) (h : exec i s = .next t) : t.Inv := by
  obtain ⟨hl, rfl⟩ | ⟨-, rfl⟩ | ⟨-, rfl⟩ := exec_cases h
  · obtain ⟨hcause, hresult, hlen⟩ := hs
    exact ⟨ruleOf_keeps_causeMatchesPhase hl hcause, ruleOf_keeps_resultIsLane hl hresult, ruleOf_keeps_lenInBlocks hlen⟩
  · exact State.raiseError_inv (by decide) s
  · exact hs

theorem accept_keeps_inv (hs : s.Inv) (h : accept w s = .next t) : t.Inv := by
  obtain ⟨i, -, hexec⟩ | ⟨r, -, hill⟩ := accept_cases h
  · exact exec_keeps_inv hs hexec
  · obtain ⟨-, rfl⟩ | ⟨-, rfl⟩ := acceptIllegal_cases hill
    · exact hs
    · exact State.raiseError_inv (by decide) s

theorem clockEdge_keeps_inv (hs : s.Inv) (h : clockEdge e s = .next t) : t.Inv := by
  obtain ⟨-, rfl⟩ | ⟨-, -, hword⟩ | ⟨-, -, rfl⟩ := clockEdge_cases h
  · exact State.resetEdge_inv s
  · exact accept_keeps_inv hs hword
  · exact hs

/-! ### The frame of a command -/

theorem ruleOf_edges (i : Instr) (s : State) : (ruleOf i s).edges = s.edges := by
  cases i with
  | nop => rfl
  | init seed => exact openMessage_edges seed s
  | block k1 k2 => exact absorbBlock_edges k1 k2 s
  | tail bytes => exact absorbTail_edges bytes s
  | final => exact finishMessage_edges s

theorem ruleOf_portDraw (i : Instr) (s : State) : (ruleOf i s).portDraw = s.portDraw := by
  cases i with
  | nop => rfl
  | init seed => exact openMessage_portDraw seed s
  | block k1 k2 => exact absorbBlock_portDraw k1 k2 s
  | tail bytes => exact absorbTail_portDraw bytes s
  | final => exact finishMessage_portDraw s

theorem exec_edges (h : exec i s = .next t) : t.edges = s.edges := by
  obtain ⟨-, rfl⟩ | ⟨-, rfl⟩ | ⟨-, rfl⟩ := exec_cases h
  · exact ruleOf_edges i s
  · exact State.raiseError_edges _ s
  · rfl

theorem exec_portDraw (h : exec i s = .next t) : t.portDraw = s.portDraw := by
  obtain ⟨-, rfl⟩ | ⟨-, rfl⟩ | ⟨-, rfl⟩ := exec_cases h
  · exact ruleOf_portDraw i s
  · exact State.raiseError_portDraw _ s
  · rfl

theorem exec_final_len (h : exec .final s = .next t) : t.len = s.len := by
  obtain ⟨-, rfl⟩ | ⟨-, rfl⟩ | ⟨-, rfl⟩ := exec_cases h
  · exact finishMessage_len s
  · exact State.raiseError_len _ s
  · rfl

theorem State.inError_self {s : State} (h : s.phase = .error) : s.inError s.cause = s := by
  cases s
  simp_all

/-- A command after which `PHASE` is `ERROR` entered it or was ignored in it: `CAUSE` and `PHASE` are all it may have changed. -/
theorem exec_into_error (h : exec i s = .next t) (ht : t.phase = .error) : t = s.inError t.cause := by
  obtain ⟨hl, rfl⟩ | ⟨-, rfl⟩ | ⟨-, rfl⟩ := exec_cases h
  · exact absurd ht (ruleOf_phase i s ▸ rulePhase_ne_error hl)
  · rw [State.raiseError_cause]
    exact raiseError_eq _ s
  · exact (State.inError_self ht).symm

theorem command_eq_nop {i : Instr} (h : i.command = .nop) : i = .nop := by
  cases i with
  | nop => rfl
  | init | block | tail | final => exact nomatch h

theorem command_eq_final {i : Instr} (h : i.command = .final) : i = .final := by
  cases i with
  | final => rfl
  | nop | init | block | tail => exact nomatch h

/-! ### The flags at one edge (R23, R24) -/

/-- Only FINAL leads to `DONE` from another phase: the table, row by row. -/
theorem nextPhase_enters_done {c : Command} {p : Phase} (hp : p ≠ .done) (h : nextPhase c p = .done) : c = .final := by
  cases c <;> cases p <;> revert hp h <;> decide

/-- Out of `DONE` lead INIT and, as errors, BLOCK, TAIL and FINAL. -/
theorem nextPhase_leaves_done {c : Command} (h : nextPhase c .done ≠ .done) : c = .init ∨ nextPhase c .done = .error := by
  cases c with
  | nop => exact absurd rfl h
  | init => exact .inl rfl
  | block | tail | final => exact .inr rfl

theorem accept_enters_done (hs : s.phase ≠ .done) (ht : t.phase = .done) (h : accept w s = .next t) :
    decode w = .ok .final := by
  obtain ⟨i, hw, hexec⟩ | ⟨r, -, hill⟩ := accept_cases h
  · have hi : i.command = .final := nextPhase_enters_done hs ((exec_phase hexec).symm.trans ht)
    rw [hw, command_eq_final hi]
  · obtain ⟨-, rfl⟩ | ⟨-, rfl⟩ := acceptIllegal_cases hill
    · exact absurd ht hs
    · exact nomatch (State.raiseError_phase _ s).symm.trans ht

theorem accept_leaves_done (hs : s.phase = .done) (ht : t.phase ≠ .done) (h : accept w s = .next t) :
    (∃ seed, decode w = .ok (.init seed)) ∨ t.phase = .error := by
  obtain ⟨i, hw, hexec⟩ | ⟨r, -, hill⟩ := accept_cases h
  · have hphase : t.phase = nextPhase i.command .done := hs ▸ exec_phase hexec
    obtain hi | herr := nextPhase_leaves_done (hphase ▸ ht)
    · obtain ⟨seed, rfl⟩ := command_eq_init_iff.mp hi
      exact .inl ⟨seed, hw⟩
    · exact .inr (hphase.trans herr)
  · obtain ⟨-, rfl⟩ | ⟨-, rfl⟩ := acceptIllegal_cases hill
    · exact absurd hs ht
    · exact .inr (State.raiseError_phase _ s)

theorem clockEdge_enters_done (hs : s.phase ≠ .done) (ht : t.phase = .done) (h : clockEdge e s = .next t) :
    e.accepts = true ∧ decode e.word = .ok .final := by
  obtain ⟨-, rfl⟩ | ⟨-, hacc, hword⟩ | ⟨-, -, rfl⟩ := clockEdge_cases h
  · exact nomatch (State.resetEdge_phase s).symm.trans ht
  · exact ⟨hacc, accept_enters_done hs ht hword⟩
  · exact absurd ht hs

theorem clockEdge_leaves_done (hs : s.phase = .done) (ht : t.phase ≠ .done) (h : clockEdge e s = .next t) :
    e.rst = true ∨ (e.accepts = true ∧ ((∃ seed, decode e.word = .ok (.init seed)) ∨ t.phase = .error)) := by
  obtain ⟨hrst, -⟩ | ⟨-, hacc, hword⟩ | ⟨-, -, rfl⟩ := clockEdge_cases h
  · exact .inl hrst
  · exact .inr ⟨hacc, accept_leaves_done hs ht hword⟩
  · exact absurd hs ht

theorem clockEdge_enters_error (hs : s.phase ≠ .error) (ht : t.phase = .error) (h : clockEdge e s = .next t) :
    t = s.inError t.cause := by
  obtain ⟨-, rfl⟩ | ⟨-, -, hword⟩ | ⟨-, -, rfl⟩ := clockEdge_cases h
  · exact nomatch (State.resetEdge_phase s).symm.trans ht
  · obtain hne | rfl | rfl := accept_outside_error hs hword
    · exact absurd ht hne
    · rfl
    · rfl
  · exact absurd ht hs

theorem clockEdge_leaves_error (hs : s.phase = .error) (ht : t.phase ≠ .error) (h : clockEdge e s = .next t) :
    e.rst = true ∨ (e.accepts = true ∧ ∃ seed, decode e.word = .ok (.init seed)) :=
  ((errorIsLeftByInitOrResetOnly e s t hs h).1 ht).imp And.left (And.imp_right fun ⟨seed, hw, _⟩ => ⟨seed, hw⟩)

end

/-- Settles O44: a step is a clock edge, which keeps the invariant, or drops idle edges, of which the invariant does not speak. -/
theorem stepKeepsInvariant : Obligations.StepKeepsInvariant := by
  intro s t hs h
  obtain ⟨-, rfl⟩ | ⟨e, rest, -, hedge⟩ := step_cases h
  · exact hs
  · exact clockEdge_keeps_inv (s := { s with edges := rest, portDraw := s.portDraw + 1 }) hs hedge

/-- Settles O43: the reset state is what a reset edge leaves of it. -/
theorem invariantAtReset : Obligations.InvariantAtReset :=
  State.resetEdge_inv State.reset

/-- Settles O24: `PHASE` and `CAUSE` by `nextPhase` and `nextCause`, the other registers by the rules' frames. -/
theorem frameOfEveryCommand : Obligations.FrameOfEveryCommand := by
  intro i s t h
  refine ⟨exec_edges h, exec_portDraw h, fun hc => ?_, fun hc => ?_, fun hc => ?_, fun hc hp => ?_, fun hc hp => ?_,
    fun hc hp => ?_, exec_into_error h⟩
  · obtain rfl := command_eq_nop hc
    exact Host.Outcome.next.inj (h.symm.trans (exec_nop s))
  · by_contra hr
    exact hc (congrArg Instr.command (exec_changes_result h hr).1)
  · obtain rfl := command_eq_final hc
    exact exec_final_len h
  · rw [exec_phase h, exec_cause h, hc, hp]
    exact ⟨rfl, rfl⟩
  · rw [exec_cause h, hc, hp]
    rfl
  · rw [exec_cause h, hc]
    obtain hp | hp := hp <;> rw [hp] <;> rfl

/-- Settles O34: the flags are `PHASE = DONE` and `PHASE = ERROR`, so each clause is one way into or out of a phase. -/
theorem flagsChangeByTheirRulesOnly : Obligations.FlagsChangeByTheirRulesOnly := by
  intro e s t h
  have hresValid (u : State) : u.resValid = false ↔ u.phase ≠ .done := decide_eq_false_iff_not
  have herr (u : State) : u.err = false ↔ u.phase ≠ .error := decide_eq_false_iff_not
  simp only [State.resValid_iff, State.err_iff, hresValid, herr]
  exact ⟨fun hs ht => clockEdge_enters_done hs ht h, fun hs ht => clockEdge_leaves_done hs ht h,
    fun hs ht => clockEdge_enters_error hs ht h, fun hs ht => clockEdge_leaves_error hs ht h, rfl, rfl⟩

end Sys2Proof.Machine

/-! SUPPORT. Steps against the clock edges they run, and the edges of reset and of acceptance
(spec/70_reset_and_hazards.md R121 to R134). -/

namespace Sys2Proof.Machine

section
variable {s t : State} {i : Instr} {w : Cmd} {e : Edge} {es : List Edge}

/-! ### Edges that accept nothing (R123, R127) -/

theorem accepts_of_rst (h : e.rst = true) : e.accepts = false := by
  simp [Edge.accepts, h]

theorem ready_of_rst (h : e.rst = true) : e.ready = false := by
  simp [Edge.ready, h]

theorem ready_of_not_rst (h : e.rst = false) : e.ready = e.cmdReady := by
  simp [Edge.ready, h]

theorem accepts_iff : e.accepts = true ↔ e.rst = false ∧ e.cmdValid = true ∧ e.ready = true := by
  simp [Edge.accepts, and_assoc]

theorem not_idle_of_accepts (h : e.accepts = true) : e.isIdle = false := by
  simp [Edge.isIdle, h]

theorem State.resetEdge_status (s : State) : s.resetEdge.status = 0x000 := by
  simp [State.status, State.err, State.resValid, Phase.code, Cause.code]

theorem State.resetEdge_resValid (s : State) : s.resetEdge.resValid = false := by
  simp [State.resValid]

theorem State.resetEdge_err (s : State) : s.resetEdge.err = false := by
  simp [State.err]

theorem State.resetEdge_readResult (s : State) : s.resetEdge.readResult = .error .resultHoldsNoValue :=
  State.readResult_of_not_done (by rw [State.resetEdge_phase]; exact nofun)

/-! ### Which edge a step takes (R133) -/

/-- A step sees the edges from the first active one on, and the registers. -/
theorem step_congr (s : State) {es fs : List Edge} (h : es.dropWhile Edge.isIdle = fs.dropWhile Edge.isIdle) :
    step { s with edges := es } = step { s with edges := fs } := by
  simp only [step, h]

theorem step_of_all_idle (s : State) (h : es.dropWhile Edge.isIdle = []) :
    step { s with edges := es } = .next { s with edges := [] } := by
  simp only [step, h]

theorem step_next (s : State) : ∃ t, step s = .next t := by
  rw [step]
  split
  · exact ⟨_, rfl⟩
  · exact clockEdge_next _ _

theorem step_of_accepts {rest : List Edge} (hedges : s.edges.dropWhile Edge.isIdle = e :: rest) (hacc : e.accepts = true) :
    step s = accept e.word { s with edges := rest, portDraw := s.portDraw + 1 } := by
  rw [step_of_dropWhile hedges, clockEdge_of_accepts hacc]

/-- When the first edge accepts a word that decodes, a step is `exec` of what it decodes to. -/
theorem step_of_decode {rest : List Edge} (hedges : s.edges = e :: rest) (hacc : e.accepts = true)
    (hw : decode e.word = .ok i) : step s = exec i { s with edges := rest, portDraw := s.portDraw + 1 } := by
  have hdrop : s.edges.dropWhile Edge.isIdle = e :: rest := by
    rw [hedges, List.dropWhile_cons_of_neg (by simp [not_idle_of_accepts hacc])]
  rw [step_of_accepts hdrop hacc, accept_of_decode hw]

theorem decode_tableWord {nbits n : Nat} (h : decodeTableWord nbits n = some i) : decode (tableWord nbits n) = .ok i := by
  unfold decodeTableWord at h
  split at h
  · rwa [← Option.some.inj h]
  · exact nomatch h

/-- A held word is the one the first active edge accepts: the edges before it are idle, for the host resets at none of them
(R128). -/
theorem dropWhile_of_holds (h : holdsUntilAccepted w es = true) :
    ∃ e rest, es.dropWhile Edge.isIdle = e :: rest ∧ e.accepts = true ∧ e.word = w := by
  induction es with
  | nil => exact nomatch h
  | cons e es ih =>
    simp only [holdsUntilAccepted, Bool.and_eq_true, Bool.or_eq_true, Bool.not_eq_true', beq_iff_eq] at h
    obtain ⟨⟨⟨hrst, -⟩, hword⟩, hlater⟩ := h
    cases hacc : e.accepts with
    | true => exact ⟨e, es, List.dropWhile_cons_of_neg (by simp [not_idle_of_accepts hacc]), hacc, hword⟩
    | false =>
      rw [List.dropWhile_cons_of_pos (isIdle_of_not_accepts hrst hacc)]
      exact ih (hlater.resolve_left (by simp [hacc]))

/-! ### The registers do not see the model's own fields -/

/-- The same registers with other edges to come and another draw counter (assumption logs 3, 4). -/
def State.withInputs (es : List Edge) (d : Nat) (s : State) : State := { s with edges := es, portDraw := d }

@[simp] theorem State.withInputs_h1 (es : List Edge) (d : Nat) (s : State) : (s.withInputs es d).h1 = s.h1 := by
  cases s; rfl

@[simp] theorem State.withInputs_h2 (es : List Edge) (d : Nat) (s : State) : (s.withInputs es d).h2 = s.h2 := by
  cases s; rfl

@[simp] theorem State.withInputs_len (es : List Edge) (d : Nat) (s : State) : (s.withInputs es d).len = s.len := by
  cases s; rfl

@[simp] theorem State.withInputs_phase (es : List Edge) (d : Nat) (s : State) : (s.withInputs es d).phase = s.phase := by
  cases s; rfl

@[simp] theorem State.withInputs_cause (es : List Edge) (d : Nat) (s : State) : (s.withInputs es d).cause = s.cause := by
  cases s; rfl

@[simp] theorem State.withInputs_result (es : List Edge) (d : Nat) (s : State) : (s.withInputs es d).result = s.result := by
  cases s; rfl

@[simp] theorem State.withInputs_edges (es : List Edge) (d : Nat) (s : State) : (s.withInputs es d).edges = es := by
  cases s; rfl

@[simp] theorem State.withInputs_portDraw (es : List Edge) (d : Nat) (s : State) : (s.withInputs es d).portDraw = d := by
  cases s; rfl

theorem ruleOf_withInputs (i : Instr) (es : List Edge) (d : Nat) (s : State) :
    ruleOf i (s.withInputs es d) = (ruleOf i s).withInputs es d := by
  cases i <;> apply State.ext_fields <;> simp [ruleOf]

theorem State.raiseError_withInputs (c : Cause) (es : List Edge) (d : Nat) (s : State) :
    (s.withInputs es d).raiseError c = (s.raiseError c).withInputs es d := by
  apply State.ext_fields <;> simp

theorem State.resetEdge_withInputs (es : List Edge) (d : Nat) (s : State) :
    (s.withInputs es d).resetEdge = s.resetEdge.withInputs es d := by
  apply State.ext_fields <;> simp

theorem exec_withInputs (h : exec i s = .next t) (es : List Edge) (d : Nat) :
    exec i (s.withInputs es d) = .next (t.withInputs es d) := by
  obtain ⟨hl, rfl⟩ | ⟨hl, rfl⟩ | ⟨hl, rfl⟩ := exec_cases h
  · rw [exec_of_ok (by exact hl), ruleOf_withInputs]
  · rw [exec_eq_gated, gated_of_seq (by exact hl), State.raiseError_withInputs]
  · exact exec_of_ignored hl

theorem acceptIllegal_withInputs (h : acceptIllegal s = .next t) (es : List Edge) (d : Nat) :
    acceptIllegal (s.withInputs es d) = .next (t.withInputs es d) := by
  obtain ⟨hp, rfl⟩ | ⟨hp, rfl⟩ := acceptIllegal_cases h
  · exact if_pos hp
  · rw [acceptIllegal, State.withInputs_phase, if_neg hp, State.raiseError_withInputs]

theorem accept_withInputs (h : accept w s = .next t) (es : List Edge) (d : Nat) :
    accept w (s.withInputs es d) = .next (t.withInputs es d) := by
  obtain ⟨i, hw, hexec⟩ | ⟨r, hw, hill⟩ := accept_cases h
  · rw [accept_of_decode hw, exec_withInputs hexec]
  · rw [accept_of_reject hw, acceptIllegal_withInputs hill]

theorem clockEdge_withInputs (h : clockEdge e s = .next t) (es : List Edge) (d : Nat) :
    clockEdge e (s.withInputs es d) = .next (t.withInputs es d) := by
  obtain ⟨hrst, rfl⟩ | ⟨-, hacc, hword⟩ | ⟨hrst, hacc, rfl⟩ := clockEdge_cases h
  · rw [clockEdge_of_rst hrst, State.resetEdge_withInputs]
  · rw [clockEdge_of_accepts hacc, accept_withInputs hword]
  · exact clockEdge_of_idle (isIdle_of_not_accepts hrst hacc) _

/-! ### The host's run of steps over a list of edges (R133) -/

theorem run_succ_congr (h : step s = step t) (n : Nat) :
    Host.Core.run core (n + 1) s = Host.Core.run core (n + 1) t := by
  obtain ⟨u, hu⟩ := step_next t
  rw [run_succ (h.trans hu), run_succ hu]

/-- A step whose first edge is active is that edge. -/
theorem step_withInputs_of_active (hidle : e.isIdle = false) (h : clockEdge e s = .next t) (es : List Edge) (d : Nat) :
    step (s.withInputs (e :: es) d) = .next (t.withInputs es (d + 1)) := by
  have hdrop : (s.withInputs (e :: es) d).edges.dropWhile Edge.isIdle = e :: es :=
    List.dropWhile_cons_of_neg (by simp [hidle])
  rw [step_of_dropWhile hdrop]
  exact clockEdge_withInputs h es (d + 1)

theorem step_withInputs_of_idle (hidle : e.isIdle = true) (s : State) (es : List Edge) (d : Nat) :
    step (s.withInputs (e :: es) d) = step (s.withInputs es d) :=
  step_congr (s.withInputs es d) (List.dropWhile_cons_of_pos hidle)

theorem activeEdges_cons_of_idle (h : e.isIdle = true) (es : List Edge) : activeEdges (e :: es) = activeEdges es := by
  simp [activeEdges, h]

theorem activeEdges_cons_of_active (h : e.isIdle = false) (es : List Edge) :
    activeEdges (e :: es) = e :: activeEdges es := by
  simp [activeEdges, h]

/-- Steps, one for each active edge of `es`, bring the run to what stands after `es`; the step that follows eats the idle edges
left over, so at least one has to follow. -/
theorem run_through_edges (h : runEdges es s = .next t) (rest : List Edge) (d k : Nat) :
    Host.Core.run core ((activeEdges es).length + (k + 1)) (s.withInputs (es ++ rest) d)
      = Host.Core.run core (k + 1) (t.withInputs rest (d + (activeEdges es).length)) := by
  induction es generalizing s d with
  | nil =>
    obtain rfl : s = t := Host.Outcome.next.inj h
    simp [activeEdges]
  | cons e es ih =>
    obtain ⟨u, hu, hrest⟩ := andThen_eq_next h
    cases hidle : e.isIdle with
    | true =>
      obtain rfl : s = u := Host.Outcome.next.inj ((clockEdge_of_idle hidle s).symm.trans hu)
      rw [activeEdges_cons_of_idle hidle, List.cons_append, ← ih hrest]
      exact run_succ_congr (step_withInputs_of_idle hidle s (es ++ rest) d) ((activeEdges es).length + k)
    | false =>
      have hcount : (activeEdges (e :: es)).length = (activeEdges es).length + 1 := by
        rw [activeEdges_cons_of_active hidle, List.length_cons]
      have hsteps : (activeEdges es).length + 1 + (k + 1) = (activeEdges es).length + (k + 1) + 1 := by omega
      have hdraw : d + ((activeEdges es).length + 1) = d + 1 + (activeEdges es).length := by omega
      rw [hcount, hsteps, hdraw, List.cons_append, run_succ (step_withInputs_of_active hidle hu (es ++ rest) d), ih hrest]

theorem runEdges_append (es fs : List Edge) (s : State) :
    runEdges (es ++ fs) s = andThen (runEdges es s) (runEdges fs) := by
  induction es generalizing s with
  | nil => rfl
  | cons e es ih =>
    obtain ⟨u, hu⟩ := clockEdge_next e s
    rw [List.cons_append, runEdges, runEdges, hu, andThen_next, andThen_next, ih]

/-- A run whose last edge is active leaves no edge over after as many steps as there are active edges. -/
theorem run_edges_to_active (hidle : e.isIdle = false) (h : runEdges (es ++ [e]) s = .next t) (d : Nat) :
    Host.Core.run core ((activeEdges es).length + 1) (s.withInputs (es ++ [e]) d)
      = .next (t.withInputs [] (d + ((activeEdges es).length + 1))) := by
  rw [runEdges_append] at h
  obtain ⟨u, hu, hlast⟩ := andThen_eq_next h
  obtain ⟨v, hv, hnil⟩ := andThen_eq_next hlast
  obtain rfl : v = t := Host.Outcome.next.inj hnil
  calc Host.Core.run core ((activeEdges es).length + 1) (s.withInputs (es ++ [e]) d)
    _ = Host.Core.run core 1 (u.withInputs [e] (d + (activeEdges es).length)) := run_through_edges hu [e] d 0
    _ = Host.Core.run core 0 (v.withInputs [] (d + (activeEdges es).length + 1)) :=
      run_succ (step_withInputs_of_active hidle hv [] _) 0
    _ = .next (v.withInputs [] (d + ((activeEdges es).length + 1))) := rfl

/-- With no reset among them the active edges are those that accept. -/
theorem activeEdges_of_noReset (h : noReset es = true) : activeEdges es = es.filter Edge.accepts := by
  refine List.filter_congr fun e he => ?_
  have hrst : e.rst = false := by simpa using List.all_eq_true.mp h e he
  simp [Edge.isIdle, hrst]

theorem activeEdges_length_of_noReset (h : noReset es = true) : (activeEdges es).length = (acceptedWords es).length := by
  rw [activeEdges_of_noReset h, acceptedWords, List.length_map]

/-! ### The edge that accepts the last word of a stream (R134) -/

variable {clock : Clock} {n : Nat} {vs : List Cmd}

theorem noReset_of_succ (h : noReset (firstEdges clock (n + 1)) = true) :
    noReset (firstEdges clock n) = true ∧ (clock n).rst = false := by
  simpa [firstEdges_succ, noReset] using h

/-- What is accepted by some edge is accepted by edge 0 or by the edge just after an accepting one: the idle edges after the last
acceptance can be left off. -/
theorem AcceptedBy.ends_accepting (h : AcceptedBy clock n vs) :
    ∃ m, AcceptedBy clock m vs ∧ (m = 0 ∨ ∃ k, m = k + 1 ∧ (clock k).accepts = true) := by
  induction n with
  | zero => exact ⟨0, h, .inl rfl⟩
  | succ n ih =>
    cases hacc : (clock n).accepts with
    | true => exact ⟨n + 1, h, .inr ⟨n, rfl, hacc⟩⟩
    | false =>
      refine ih ⟨?_, (noReset_of_succ h.no_reset).1⟩
      rw [← h.words, firstEdges_succ, acceptedWords_append, acceptedWords_cons_of_not_accepts hacc, acceptedWords_nil,
        List.append_nil]

/-- As many steps as words were accepted, on the edges up to the last acceptance, leave what the words leave. -/
theorem AcceptedBy.run_eq (h : AcceptedBy clock n vs) (hend : n = 0 ∨ ∃ k, n = k + 1 ∧ (clock k).accepts = true)
    (ht : acceptAll vs s = .next t) (d : Nat) :
    Host.Core.run core vs.length (s.withInputs (firstEdges clock n) d) = .next (t.withInputs [] (d + vs.length)) := by
  obtain rfl | ⟨k, rfl, hacc⟩ := hend
  · obtain rfl : vs = [] := h.words.symm
    obtain rfl : s = t := Host.Outcome.next.inj ht
    rfl
  · have hrun : runEdges (firstEdges clock k ++ [clock k]) s = .next t := by
      rw [← firstEdges_succ, h.runEdges_eq, ht]
    have hcount : vs.length = (activeEdges (firstEdges clock k)).length + 1 := by
      rw [activeEdges_length_of_noReset (noReset_of_succ h.no_reset).1, ← h.words, firstEdges_succ, acceptedWords_append,
        acceptedWords_cons_of_accepts hacc, acceptedWords_nil, List.length_append, List.length_singleton]
    rw [hcount, firstEdges_succ, run_edges_to_active (not_idle_of_accepts hacc) hrun]

end

/-- Settles O35: `resetEdge` is the next state, and its registers are those of reset. -/
theorem resetEdge : Obligations.ResetEdge := by
  exact ⟨fun e s h => ⟨accepts_of_rst h, ready_of_rst h, s.resetEdge, clockEdge_of_rst h s, State.resetEdge_phase s,
    State.resetEdge_cause s, State.resetEdge_status s, State.resetEdge_resValid s, State.resetEdge_err s,
    State.resetEdge_readResult s⟩, rfl, rfl, State.resetEdge_status State.reset⟩

/-- Settles O36: the three signals are the definition of acceptance, and an edge without a reset that does not accept is idle. -/
theorem acceptanceNeedsAllThree : Obligations.AcceptanceNeedsAllThree := by
  refine fun e s => ⟨accepts_iff, ready_of_not_rst, fun hacc => clockEdge_of_accepts hacc s, fun hrst hfail => ?_⟩
  have hacc : e.accepts = false := by
    obtain h | h := hfail <;> simp [Edge.accepts, h]
  exact clockEdge_of_idle (isIdle_of_not_accepts hrst hacc) s

/-- Settles O37: the first edge is the one the step takes, and `withFetchWord` puts an accepting edge there. -/
theorem stepRunsDecodedInstruction : Obligations.StepRunsDecodedInstruction := by
  refine ⟨fun s e rest i hedges hacc hw => step_of_decode hedges hacc hw, fun s nbits n i h => ?_⟩
  have hw : decode (Edge.accepting (tableWord nbits n)).word = .ok i := by
    rw [accepting_word, decode_tableWord h]
  exact step_of_decode (s := s.withFetchWord nbits n) rfl rfl hw

/-- Settles O38: a step drops the idle edges in front. -/
theorem idleEdgesAreNoSteps : Obligations.IdleEdgesAreNoSteps :=
  fun s _ _ hidle => ⟨step_congr s (List.dropWhile_append_of_pos hidle),
    step_of_all_idle s (List.dropWhile_eq_nil_iff.mpr hidle)⟩

/-- Settles O39: the first active edge accepts the held word. -/
theorem heldCommandIsAccepted : Obligations.HeldCommandIsAccepted := by
  intro w s h
  obtain ⟨e, rest, hdrop, hacc, rfl⟩ := dropWhile_of_holds h
  exact ⟨rest, step_of_accepts hdrop hacc⟩

/-- Settles O42: a clock edge answers a next state, and so does a step with no active edge left. -/
theorem stepAlwaysAnswersNext : Obligations.StepAlwaysAnswersNext :=
  step_next

/-- Settles O41: `run_through_edges` with nothing after the edges, and one step that drops the idle rest. -/
theorem stepsRunTheEdges : Obligations.StepsRunTheEdges := by
  intro es s
  obtain ⟨t, ht⟩ := runEdges_next es s
  have hrun := run_through_edges ht [] s.portDraw 0
  rw [List.append_nil] at hrun
  exact ⟨t, ht, hrun⟩

/-- Settles O53: the stream is accepted by some edge (HeldStreamCompletes), and the run stops at its last acceptance. -/
theorem heldStreamTakesOneStepACommand : Obligations.HeldStreamTakesOneStepACommand := by
  intro clock ws hrises hoffer
  obtain ⟨n, hn⟩ := (AcceptedBy.zero clock).rest_of_stream hrises hoffer
  obtain ⟨m, hm, hend⟩ := hn.ends_accepting
  refine ⟨m, fun s => ?_⟩
  obtain ⟨t, ht⟩ := acceptAll_next ws s
  exact ⟨t, ht, hm.run_eq hend ht s.portDraw⟩

end Sys2Proof.Machine

/-! SUPPORT. The assembler on lines, and the printed text of a line read back (spec/30_encoding.md R62 to R65). -/

namespace Sys2Proof.Asm

/-! ### Assembly of lines (R63) -/

/-- The line an instruction is written as (R62). -/
def lineOf : Instr → Line
  | .nop => .nop
  | .init seed => .init seed.toNat
  | .block k1 k2 => .block (lanes (blockData k1 k2) 16)
  | .tail bytes => .tail bytes
  | .final => .final

theorem assembleLine_init {seed : Nat} (h : seed < 2 ^ 32) :
    assembleLine (.init seed) = .ok (mkCmd 1 0 (BitVec.ofNat 128 seed)) := if_pos h

theorem assembleLine_init_error {seed : Nat} (h : 2 ^ 32 ≤ seed) : assembleLine (.init seed) = .error .seedTooLarge :=
  if_neg (Nat.not_lt.mpr h)

theorem assembleLine_block {bytes : List Byte} (h : bytes.length = 16) :
    assembleLine (.block bytes) = .ok (mkCmd 2 0 (packBytes bytes)) := if_pos h

theorem assembleLine_block_error {bytes : List Byte} (h : bytes.length ≠ 16) :
    assembleLine (.block bytes) = .error .blockNotSixteen := if_neg h

theorem assembleLine_tail {bytes : List Byte} (h : bytes.length ≤ 15) :
    assembleLine (.tail bytes) = .ok (mkCmd 3 (BitVec.ofNat 4 bytes.length) (packBytes bytes)) := if_pos h

theorem assembleLine_tail_error {bytes : List Byte} (h : 15 < bytes.length) :
    assembleLine (.tail bytes) = .error .tailTooLong := if_neg (Nat.not_le.mpr h)

theorem assembleLine_cmd {bytes : List Byte} (h : bytes.length = 16) (op tlen : BitVec 4) :
    assembleLine (.cmd op.toNat tlen.toNat bytes) = .ok (mkCmd op tlen (packBytes bytes)) := by
  have hfields : op.toNat < 16 ∧ tlen.toNat < 16 := ⟨op.isLt, tlen.isLt⟩
  rw [assembleLine, if_pos hfields, if_pos h, BitVec.ofNat_toNat, BitVec.ofNat_toNat, BitVec.setWidth_eq, BitVec.setWidth_eq]

/-- The line of a well-formed instruction assembles to the instruction's word. -/
theorem assembleLine_lineOf {i : Instr} (hi : i.wellFormed = true) : assembleLine (lineOf i) = .ok (encode i) := by
  cases i with
  | nop => rfl
  | init seed => rw [lineOf, assembleLine_init seed.isLt, encode, BitVec.ofNat_toNat]
  | block k1 k2 => rw [lineOf, assembleLine_block (lanes_length _ _), Machine.packBytes_lanes, encode]
  | tail bytes => rw [lineOf, assembleLine_tail (Machine.wellFormed_tail_iff.mp hi), encode]
  | final => rfl

theorem assembleLines_cons {l : Line} {ls : List Line} {w : Cmd} {ws : List Cmd} (hl : assembleLine l = .ok w)
    (hls : assembleLines ls = .ok ws) : assembleLines (l :: ls) = .ok (w :: ws) := by
  rw [assembleLines, hl, hls]

theorem assembleLines_map_lineOf {is : List Instr} (h : ∀ i ∈ is, i.wellFormed = true) :
    assembleLines (is.map lineOf) = .ok (is.map encode) := by
  induction is with
  | nil => rfl
  | cons i is ih =>
    obtain ⟨hi, his⟩ := List.forall_mem_cons.mp h
    exact assembleLines_cons (assembleLine_lineOf hi) (ih his)

/-! ### Disassembly (R65) -/

theorem disassemble_of_decode {w : Cmd} {i : Instr} (h : decode w = .ok i) : disassemble w = lineOf i := by
  rw [disassemble, h]
  cases i <;> rfl

theorem disassemble_of_reject {w : Cmd} {r : Reject} (h : decode w = .error r) :
    disassemble w = .cmd (cmdOp w).toNat (cmdTlen w).toNat (lanes (cmdData w) 16) := by
  rw [disassemble, h]

/-- A word that is no command comes back as it was: `.cmd` has all of its bits. -/
theorem assembleLine_disassemble_of_reject {w : Cmd} {r : Reject} (h : decode w = .error r) :
    assembleLine (disassemble w) = .ok w := by
  rw [disassemble_of_reject h, assembleLine_cmd (lanes_length _ _), Machine.packBytes_lanes, mkCmd_fields]

/-! ### Hex digits (R62, R63) -/

/-- A character that neither ends a word nor starts a string or a comment. -/
def isPlain (c : Char) : Bool := c != ';' && !isBlank c && c != ',' && c != '"'

theorem isPlain_iff {c : Char} : isPlain c = true ↔ c ≠ ';' ∧ isBlank c = false ∧ c ≠ ',' ∧ c ≠ '"' := by
  simp [isPlain, and_assoc]

theorem hexValue_hexDigit : ∀ n < 16, hexValue (hexDigit n) = some n := by
  decide

theorem isPlain_hexDigit : ∀ n < 16, isPlain (hexDigit n) = true := by
  decide

/-- The most significant digit comes first. -/
theorem hexNumber_succ (width n : Nat) : hexNumber (width + 1) n = hexDigit (n / 16 ^ width % 16) :: hexNumber width n := by
  rw [hexNumber, List.range_succ_eq_map, List.map_cons, List.map_map]
  refine congrArg₂ _ (by simp) (List.map_congr_left fun i _ => ?_)
  have hplace : width + 1 - 1 - (i + 1) = width - 1 - i := by omega
  rw [Function.comp_apply, Nat.succ_eq_add_one, hplace]

theorem isPlain_of_mem_hexNumber {width n : Nat} {c : Char} (h : c ∈ hexNumber width n) : isPlain c = true := by
  obtain ⟨i, -, rfl⟩ := List.mem_map.mp h
  exact isPlain_hexDigit _ (Nat.mod_lt _ (by decide))

theorem digitsValue_cons_hexDigit {d : Nat} (hd : d < 16) (acc : Nat) (cs : List Char) :
    digitsValue 16 acc (hexDigit d :: cs) = digitsValue 16 (16 * acc + d) cs := by
  rw [digitsValue, hexValue_hexDigit d hd]
  exact if_pos hd

/-- Digits read after a value `acc` shift it by their number of places. -/
theorem digitsValue_hexNumber (width acc n : Nat) :
    digitsValue 16 acc (hexNumber width n) = some (acc * 16 ^ width + n % 16 ^ width) := by
  induction width generalizing acc with
  | zero => simp [hexNumber, digitsValue, Nat.mod_one]
  | succ width ih =>
    rw [hexNumber_succ, digitsValue_cons_hexDigit (Nat.mod_lt _ (by decide)), ih, Nat.mod_pow_succ]
    refine congrArg some ?_
    ring

/-- A number as it is printed: `0x` and its digits. -/
def hexWord (width n : Nat) : List Char := '0' :: 'x' :: hexNumber width n

theorem numberOf_hexWord {width n : Nat} (h : n < 16 ^ (width + 1)) : numberOf (hexWord (width + 1) n) = some n := by
  have hvalue := digitsValue_hexNumber (width + 1) 0 n
  rw [Nat.zero_mul, Nat.zero_add, Nat.mod_eq_of_lt h, hexNumber_succ] at hvalue
  rw [hexWord, hexNumber_succ]
  exact hvalue

theorem isPlain_of_mem_hexWord {width n : Nat} : ∀ c ∈ hexWord width n, isPlain c = true := by
  simp only [hexWord, List.forall_mem_cons]
  exact ⟨by decide, by decide, fun _ => isPlain_of_mem_hexNumber⟩

/-- The digits of a byte string (R62). -/
def hexBytes (bytes : List Byte) : List Char := bytes.flatMap fun b => hexNumber 2 b.toNat

theorem hexBytes_cons (b : Byte) (bytes : List Byte) :
    hexBytes (b :: bytes) = hexDigit (b.toNat / 16 % 16) :: hexDigit (b.toNat % 16) :: hexBytes bytes := by
  simp [hexBytes, hexNumber, List.range_succ]

theorem bytesOf_hexBytes (bytes : List Byte) : bytesOf (hexBytes bytes) = some bytes := by
  induction bytes with
  | nil => rfl
  | cons b bytes ih =>
    have hb : 16 * (b.toNat / 16 % 16) + b.toNat % 16 = b.toNat := by
      have := b.isLt
      omega
    rw [hexBytes_cons, bytesOf, hexValue_hexDigit _ (Nat.mod_lt _ (by decide)), hexValue_hexDigit _ (Nat.mod_lt _ (by decide)),
      ih]
    simp only [hb, BitVec.ofNat_toNat, BitVec.setWidth_eq]

theorem isPlain_of_mem_hexBytes {bytes : List Byte} : ∀ c ∈ hexBytes bytes, isPlain c = true := by
  intro c hc
  obtain ⟨b, -, hmem⟩ := List.mem_flatMap.mp hc
  exact isPlain_of_mem_hexNumber hmem

theorem printBytes_eq (bytes : List Byte) : printBytes bytes = 'x' :: '"' :: (hexBytes bytes ++ ['"']) := by
  simp [printBytes, hexBytes]

/-! ### The scanner (R62) -/

theorem scan_inWord_append {word : List Char} (h : ∀ c ∈ word, isPlain c = true) (acc rest : List Char) :
    scan (.inWord acc) (word ++ rest) = scan (.inWord (word.reverse ++ acc)) rest := by
  induction word generalizing acc with
  | nil => rfl
  | cons c word ih =>
    obtain ⟨hc, hword⟩ := List.forall_mem_cons.mp h
    obtain ⟨hsemi, hblank, hcomma, hquote⟩ := isPlain_iff.mp hc
    rw [List.cons_append, scan, if_neg hsemi, if_neg (by simp [hblank]), if_neg hcomma, if_neg hquote, ih hword]
    simp

/-- A word is read whole: the scanner comes to what stands after it with the word, reversed, in hand. -/
theorem scan_gap_append {word : List Char} (hne : word ≠ []) (h : ∀ c ∈ word, isPlain c = true) (rest : List Char) :
    scan .gap (word ++ rest) = scan (.inWord word.reverse) rest := by
  obtain ⟨c, cs, rfl⟩ := List.exists_cons_of_ne_nil hne
  obtain ⟨hc, hcs⟩ := List.forall_mem_cons.mp h
  obtain ⟨hsemi, hblank, hcomma, -⟩ := isPlain_iff.mp hc
  rw [List.cons_append, scan, if_neg hsemi, if_neg (by simp [hblank]), if_neg hcomma, scan_inWord_append hcs]
  simp

theorem scan_word_end {word : List Char} (hne : word ≠ []) (h : ∀ c ∈ word, isPlain c = true) :
    scan .gap word = .ok [.word word] := by
  have hscan := scan_gap_append hne h []
  rwa [List.append_nil, scan, List.reverse_reverse] at hscan

theorem scan_word_blank {word rest : List Char} {ts : List Token} (hne : word ≠ []) (h : ∀ c ∈ word, isPlain c = true)
    (hrest : scan .gap rest = .ok ts) : scan .gap (word ++ ' ' :: rest) = .ok (.word word :: ts) := by
  rw [scan_gap_append hne h, scan, if_neg (by decide), if_pos (by decide), List.reverse_reverse, hrest, push]

theorem scan_word_comma {word rest : List Char} {ts : List Token} (hne : word ≠ []) (h : ∀ c ∈ word, isPlain c = true)
    (hrest : scan .gap rest = .ok ts) : scan .gap (word ++ ',' :: ' ' :: rest) = .ok (.word word :: .comma :: ts) := by
  have hgap : scan .gap (' ' :: rest) = .ok ts := by
    rw [scan, if_neg (by decide), if_pos (by decide), hrest]
  rw [scan_gap_append hne h, scan, if_neg (by decide), if_neg (by decide), if_pos rfl, List.reverse_reverse, hgap, push, push]

theorem scan_inString_append {text : List Char} (h : ∀ c ∈ text, isPlain c = true) (acc : List Char) :
    scan (.inString acc) (text ++ ['"']) = .ok [.digits (acc.reverse ++ text)] := by
  induction text generalizing acc with
  | nil => rw [List.nil_append, scan, if_pos rfl, scan, push, List.append_nil]
  | cons c text ih =>
    obtain ⟨hc, htext⟩ := List.forall_mem_cons.mp h
    obtain ⟨-, -, -, hquote⟩ := isPlain_iff.mp hc
    rw [List.cons_append, scan, if_neg hquote, ih htext]
    simp

theorem scan_printBytes (bytes : List Byte) : scan .gap (printBytes bytes) = .ok [.digits (hexBytes bytes)] := by
  have hx := scan_gap_append (word := ['x']) (by decide) (List.all_eq_true.mp (by decide)) ('"' :: (hexBytes bytes ++ ['"']))
  rw [printBytes_eq]
  refine hx.trans ?_
  rw [scan, if_neg (by decide), if_neg (by decide), if_neg (by decide), if_pos rfl, if_pos (by decide),
    scan_inString_append isPlain_of_mem_hexBytes]
  rfl

theorem scan_hexWord (width n : Nat) : scan .gap (hexWord width n) = .ok [.word (hexWord width n)] :=
  scan_word_end (List.cons_ne_nil _ _) isPlain_of_mem_hexWord

/-! ### The printed text of a line, read back (R65) -/

/-- The numbers of a line fit the digits they are printed with. -/
def Line.printable : Line → Prop
  | .init seed => seed < 2 ^ 32
  | .cmd op tlen _ => op < 16 ∧ tlen < 16
  | .nop => True
  | .block _ => True
  | .tail _ => True
  | .final => True

theorem parseLine_of_scan {text : List Char} {ts : List Token} (h : scan .gap text = .ok ts) :
    parseLine text = parseTokens ts := by
  rw [parseLine, h]

theorem parseLine_nop : parseLine (printLine .nop) = .ok (some (.line .nop)) := by
  decide

theorem parseLine_final : parseLine (printLine .final) = .ok (some (.line .final)) := by
  decide

theorem parseTokens_init {text : List Char} {seed : Nat} (h : numberOf text = some seed) :
    parseTokens [.word ['I', 'N', 'I', 'T'], .word text] = .ok (some (.line (.init seed))) := by
  have hname : ['I', 'N', 'I', 'T'].map lower = ['i', 'n', 'i', 't'] := by decide
  simp only [parseTokens, hname, h, if_true]

theorem parseTokens_block {text : List Char} {bytes : List Byte} (h : bytesOf text = some bytes) :
    parseTokens [.word ['B', 'L', 'O', 'C', 'K'], .digits text] = .ok (some (.line (.block bytes))) := by
  have hname : ['B', 'L', 'O', 'C', 'K'].map lower = ['b', 'l', 'o', 'c', 'k'] := by decide
  simp only [parseTokens, hname, withBytes, h, if_true]

theorem parseTokens_tail {text : List Char} {bytes : List Byte} (h : bytesOf text = some bytes) :
    parseTokens [.word ['T', 'A', 'I', 'L'], .digits text] = .ok (some (.line (.tail bytes))) := by
  have hname : ['T', 'A', 'I', 'L'].map lower = ['t', 'a', 'i', 'l'] := by decide
  have hblock : ['t', 'a', 'i', 'l'] ≠ ['b', 'l', 'o', 'c', 'k'] := by decide
  simp only [parseTokens, hname, if_neg hblock, withBytes, h, if_true]

theorem parseTokens_cmd {o n text : List Char} {op tlen : Nat} {bytes : List Byte} (ho : numberOf o = some op)
    (hn : numberOf n = some tlen) (h : bytesOf text = some bytes) :
    parseTokens [.word ['.', 'c', 'm', 'd'], .word o, .comma, .word n, .comma, .digits text]
      = .ok (some (.line (.cmd op tlen bytes))) := by
  have hname : ['.', 'c', 'm', 'd'].map lower = ['.', 'c', 'm', 'd'] := by decide
  simp only [parseTokens, hname, ho, hn, withBytes, h, if_true]

theorem printLine_init (seed : Nat) : printLine (.init seed) = ['I', 'N', 'I', 'T'] ++ ' ' :: hexWord 8 seed := rfl

theorem printLine_block (bytes : List Byte) :
    printLine (.block bytes) = ['B', 'L', 'O', 'C', 'K'] ++ ' ' :: printBytes bytes := rfl

theorem printLine_tail (bytes : List Byte) :
    printLine (.tail bytes) = ['T', 'A', 'I', 'L'] ++ ' ' :: printBytes bytes := rfl

theorem printLine_cmd (op tlen : Nat) (bytes : List Byte) :
    printLine (.cmd op tlen bytes)
      = ['.', 'c', 'm', 'd'] ++ ' ' :: (hexWord 1 op ++ ',' :: ' ' :: (hexWord 1 tlen ++ ',' :: ' ' :: printBytes bytes)) := by
  simp [printLine, hexWord]

/-- A printed line reads back as that line: its words, commas and string are scanned one by one, and each number and string is
read as it was printed. -/
theorem parseLine_printLine {l : Line} (h : l.printable) : parseLine (printLine l) = .ok (some (.line l)) := by
  cases l with
  | nop => exact parseLine_nop
  | final => exact parseLine_final
  | init seed =>
    have hscan : scan .gap (printLine (.init seed)) = .ok [.word ['I', 'N', 'I', 'T'], .word (hexWord 8 seed)] :=
      printLine_init seed ▸ scan_word_blank (by decide) (List.all_eq_true.mp (by decide)) (scan_hexWord 8 seed)
    have hseed : seed < 16 ^ (7 + 1) := h
    rw [parseLine_of_scan hscan, parseTokens_init (numberOf_hexWord hseed)]
  | block bytes =>
    have hscan : scan .gap (printLine (.block bytes)) = .ok [.word ['B', 'L', 'O', 'C', 'K'], .digits (hexBytes bytes)] :=
      printLine_block bytes ▸ scan_word_blank (by decide) (List.all_eq_true.mp (by decide)) (scan_printBytes bytes)
    rw [parseLine_of_scan hscan, parseTokens_block (bytesOf_hexBytes bytes)]
  | tail bytes =>
    have hscan : scan .gap (printLine (.tail bytes)) = .ok [.word ['T', 'A', 'I', 'L'], .digits (hexBytes bytes)] :=
      printLine_tail bytes ▸ scan_word_blank (by decide) (List.all_eq_true.mp (by decide)) (scan_printBytes bytes)
    rw [parseLine_of_scan hscan, parseTokens_tail (bytesOf_hexBytes bytes)]
  | cmd op tlen bytes =>
    obtain ⟨hop, htlen⟩ := h
    have hword (n : Nat) : hexWord 1 n ≠ [] := List.cons_ne_nil _ _
    have hoperands := scan_word_comma (hword op) isPlain_of_mem_hexWord
      (scan_word_comma (hword tlen) isPlain_of_mem_hexWord (scan_printBytes bytes))
    have hscan := scan_word_blank (word := ['.', 'c', 'm', 'd']) (by decide) (List.all_eq_true.mp (by decide)) hoperands
    rw [← printLine_cmd] at hscan
    rw [parseLine_of_scan hscan, parseTokens_cmd (numberOf_hexWord (width := 0) hop) (numberOf_hexWord (width := 0) htlen)
      (bytesOf_hexBytes bytes)]

theorem assembleText_printLine {l : Line} {w : Cmd} (hl : l.printable) (hw : assembleLine l = .ok w) :
    assembleText (printLine l) = .ok [w] := by
  rw [assembleText, parseLine_printLine hl]
  exact assembleLines_cons hw rfl

theorem printable_lineOf (i : Instr) : (lineOf i).printable := by
  cases i with
  | init seed => exact seed.isLt
  | nop | block | tail | final => trivial

theorem printable_disassemble (w : Cmd) : (disassemble w).printable := by
  cases hw : decode w with
  | ok i => exact disassemble_of_decode hw ▸ printable_lineOf i
  | error r =>
    rw [disassemble_of_reject hw]
    exact ⟨(cmdOp w).isLt, (cmdTlen w).isLt⟩

end Sys2Proof.Asm

namespace Sys2Proof.Machine

/-- Settles O51: the printed line reads back as itself, and assembles to `encode` of what the word decodes to, or to the word
itself if it is `ILLEGAL`. -/
theorem printThenAssemble : Obligations.PrintThenAssemble := by
  intro w
  have hprint {v : Cmd} (hv : Asm.assembleLine (Asm.disassemble w) = .ok v) :
      Asm.assembleText (Asm.printLine (Asm.disassemble w)) = .ok [v] :=
    Asm.assembleText_printLine (Asm.printable_disassemble w) hv
  cases hw : decode w with
  | error r =>
    exact ⟨w, hprint (Asm.assembleLine_disassemble_of_reject hw), rfl, rfl, hw, fun _ => rfl⟩
  | ok i =>
    obtain ⟨hwf, hop, htlen, -⟩ := encodeKeepsTheBitsRead w i hw
    have hdecode : decode (encode i) = .ok i := decodeEncodeRoundTrip i hwf
    have hline : Asm.assembleLine (Asm.disassemble w) = .ok (encode i) := by
      rw [Asm.disassemble_of_decode hw, Asm.assembleLine_lineOf hwf]
    exact ⟨encode i, hprint hline, hop, htlen, hdecode, accept_congr (hdecode.trans hw.symm)⟩

/-- Settles O50: each line by its lemma, and the lanes of packed bytes are the bytes. -/
theorem assemblyIntoWords : Obligations.AssemblyIntoWords := by
  refine ⟨rfl, rfl, fun seed => ⟨Asm.assembleLine_init, Asm.assembleLine_init_error⟩, fun bytes => ?_, by decide⟩
  have hlanes : ∀ j < 16, byteLane (packBytes bytes) j = bytes.getD j 0 := byteLane_packBytes bytes
  exact ⟨fun h => ⟨_, Asm.assembleLine_block h, hlanes⟩, Asm.assembleLine_block_error,
    fun h => ⟨_, Asm.assembleLine_tail h, hlanes⟩, Asm.assembleLine_tail_error,
    fun h op tlen => ⟨_, Asm.assembleLine_cmd h op tlen, hlanes⟩⟩

end Sys2Proof.Machine

/-! SUPPORT. The tail's accumulator in another order, and for bytes below 0x80 (spec/42_tail_processor.md R85, R92). -/

namespace Sys2Proof.Machine

/-! ### Every order of folding (R85) -/

/-- Settles O15: each step adds one term by exclusive-or, so folding from the other end, and in any order, gives the same. -/
theorem tailFoldOrderIsImmaterial : Obligations.TailFoldOrderIsImmaterial := by
  intro bytes places hperm
  have hrev : places.reverse.Perm bytes.zipIdx := (List.reverse_perm places).trans hperm
  rw [List.foldl_eq_foldr_reverse, foldTail]
  exact hrev.foldr_eq' (fun p _ q _ k => by ac_rfl) 0

/-! ### Bytes below 0x80 (R92) -/

/-- Shifting every term shifts the accumulator. -/
theorem foldr_xor_shiftLeft {α : Type} (f : α → Word) (l : List α) (n : Nat) :
    l.foldr (fun p k => k ^^^ (f p <<< n)) 0 = l.foldr (fun p k => k ^^^ f p) 0 <<< n := by
  induction l with
  | nil => simp
  | cons a l ih => rw [List.foldr_cons, List.foldr_cons, ih, BitVec.shiftLeft_xor_distrib]

/-- The accumulator from the first byte on: the bytes after it stand eight bits higher. -/
theorem foldTail_cons (b : Byte) (bytes : List Byte) : foldTail (b :: bytes) = (foldTail bytes <<< 8) ^^^ sext64 b := by
  have hshift (p : Byte × Nat) : sext64 p.1 <<< (8 * (p.2 + 1)) = (sext64 p.1 <<< (8 * p.2)) <<< 8 := by
    rw [← BitVec.shiftLeft_add, Nat.mul_succ]
  have hrest : bytes.zipIdx 1 = bytes.zipIdx.map fun p => (p.1, p.2 + 1) := by
    rw [List.zipIdx_succ]
  rw [foldTail, foldTail, List.zipIdx_cons, List.foldr_cons, hrest, List.foldr_map]
  simp only [hshift]
  rw [foldr_xor_shiftLeft]
  simp

/-- With bit 7 clear, sign extension fills with zeros. -/
theorem sext64_of_small {b : Byte} (h : b.toNat < 0x80) : sext64 b = zext64 b :=
  BitVec.signExtend_eq_setWidth_of_msb_false (BitVec.msb_eq_false_iff_two_mul_lt.mpr (by omega))

/-- A byte below a word shifted past it meets none of its bits. -/
theorem shiftLeft_xor_zext64 (x : Word) (b : Byte) : (x <<< 8) ^^^ zext64 b = (x <<< 8) ||| zext64 b := by
  apply BitVec.eq_of_getLsbD_eq
  intro i hi
  by_cases h8 : i < 8
  · simp [h8]
  · have hb : b.getLsbD i = false := BitVec.getLsbD_of_ge b i (by omega)
    simp [zext64, hb]

theorem foldTail_of_small {bytes : List Byte} (h : ∀ b ∈ bytes, b.toNat < 0x80) : foldTail bytes = le64 bytes := by
  induction bytes with
  | nil => rfl
  | cons b bytes ih =>
    obtain ⟨hb, hbytes⟩ := List.forall_mem_cons.mp h
    rw [foldTail_cons, le64, ih hbytes, sext64_of_small hb, shiftLeft_xor_zext64]

/-- Settles O16: both accumulators are folds over some of the bytes. -/
theorem tailOfSmallBytesIsLittleEndian : Obligations.TailOfSmallBytesIsLittleEndian :=
  fun _ _ h => ⟨foldTail_of_small fun b hb => h b (List.mem_of_mem_take hb),
    foldTail_of_small fun b hb => h b (List.mem_of_mem_drop hb)⟩

end Sys2Proof.Machine

/-! SUPPORT. Streams of commands, what the rest of a message may depend on, and the commands of `HASH`
(spec/43_finalizer.md R100 to R102, spec/10_state.md R31, spec/30_encoding.md R64). -/

namespace Sys2Proof.Machine

section
variable {s s' t t' : State} {i : Instr} {w : Cmd}

/-! ### Streams of decoded words -/

/-- What an accepted word does, by its decoding: an instruction, or none for `ILLEGAL`. -/
def runCommand : Option Instr → State → Result
  | some i => exec i
  | none => acceptIllegal

/-- The left-to-right composition of decoded words. -/
def runCommands : List (Option Instr) → State → Result
  | [], s => .next s
  | c :: cs, s => andThen (runCommand c s) (runCommands cs)

theorem accept_eq_runCommand (w : Cmd) (s : State) : accept w s = runCommand (decode w).toOption s := by
  cases hw : decode w with
  | ok i => exact accept_of_decode hw s
  | error r => exact accept_of_reject hw s

theorem acceptAll_eq_runCommands (ws : List Cmd) (s : State) :
    acceptAll ws s = runCommands (ws.map fun w => (decode w).toOption) s := by
  induction ws generalizing s with
  | nil => rfl
  | cons w ws ih => rw [acceptAll, List.map_cons, runCommands, accept_eq_runCommand, funext ih]

theorem execAll_eq_runCommands (is : List Instr) (s : State) : execAll is s = runCommands (is.map some) s := by
  induction is generalizing s with
  | nil => rfl
  | cons i is ih => rw [execAll, List.map_cons, runCommands, runCommand, funext ih]

/-- NOPs can be left out of a stream. -/
theorem runCommands_filter_nop (cs : List (Option Instr)) (s : State) :
    runCommands (cs.filter fun c => c != some .nop) s = runCommands cs s := by
  induction cs generalizing s with
  | nil => rfl
  | cons c cs ih =>
    by_cases hc : c = some .nop
    · subst hc
      rw [List.filter_cons_of_neg (by simp), ih, runCommands, runCommand, exec_nop, andThen_next]
    · rw [List.filter_cons_of_pos (by simpa using hc), runCommands, runCommands, funext ih]

/-- Edges without a reset do what their commands, NOPs left out, do. -/
theorem runEdges_eq_runCommands {es : List Edge} (h : noReset es = true) (s : State) :
    runEdges es s = runCommands (commandsOf es) s := by
  rw [edgesRunTheAcceptedWords es s h, acceptAll_eq_runCommands, commandsOf, runCommands_filter_nop]

/-! ### Two states of one message (R102) -/

/-- In two states of one phase a word that decodes to `ILLEGAL` is ignored in both or raises in both. -/
theorem acceptIllegal_both (hp : s.phase = s'.phase) (ht : acceptIllegal s = .next t) (ht' : acceptIllegal s' = .next t') :
    (t = s ∧ t' = s') ∨ (t = s.raiseError .illegal ∧ t' = s'.raiseError .illegal) := by
  obtain ⟨herr, rfl⟩ | ⟨herr, rfl⟩ := acceptIllegal_cases ht <;>
    obtain ⟨herr', rfl⟩ | ⟨herr', rfl⟩ := acceptIllegal_cases ht'
  · exact .inl ⟨rfl, rfl⟩
  · exact absurd (hp ▸ herr) herr'
  · exact absurd (hp.trans herr') herr
  · exact .inr ⟨rfl, rfl⟩

/-- The two states agree on everything the commands after an INIT, and the host, can see: `RESULT` counts in `DONE` only. -/
structure SameMessage (s s' : State) : Prop where
  phase : s.phase = s'.phase
  cause : s.cause = s'.cause
  h1 : s.h1 = s'.h1
  h2 : s.h2 = s'.h2
  len : s.len = s'.len
  result : s.phase = .done → s.result = s'.result

/-- INIT makes any two states agree. -/
theorem SameMessage.openMessage (seed : BitVec 32) (s s' : State) :
    SameMessage (openMessage seed s) (openMessage seed s') := by
  constructor <;> simp

theorem SameMessage.raiseError (h : SameMessage s s') (c : Cause) : SameMessage (s.raiseError c) (s'.raiseError c) := by
  constructor <;> simp [h.h1, h.h2, h.len]

theorem SameMessage.ruleOf (h : SameMessage s s') (i : Instr) : SameMessage (ruleOf i s) (ruleOf i s') := by
  cases i with
  | nop => exact h
  | init seed => exact .openMessage seed s s'
  | block k1 k2 =>
    constructor <;> simp only [Machine.ruleOf, absorbBlock_phase, absorbBlock_cause, absorbBlock_h1, absorbBlock_h2,
      absorbBlock_len, absorbBlock_result, h.phase, h.cause, h.h1, h.h2, h.len]
    exact h.phase ▸ h.result
  | tail bytes => constructor <;> simp [Machine.ruleOf, h.cause, h.h1, h.h2, h.len]
  | final => constructor <;> simp [Machine.ruleOf, h.cause, h.h1, h.h2, h.len]

theorem SameMessage.exec (h : SameMessage s s') (ht : exec i s = .next t) (ht' : exec i s' = .next t') : SameMessage t t' := by
  rw [exec_eq_gated] at ht ht'
  cases hl : legality i.command s.phase with
  | ok =>
    rw [gated_of_ok hl] at ht
    rw [gated_of_ok (h.phase ▸ hl)] at ht'
    exact Host.Outcome.next.inj ht ▸ Host.Outcome.next.inj ht' ▸ h.ruleOf i
  | seq =>
    rw [gated_of_seq hl] at ht
    rw [gated_of_seq (h.phase ▸ hl)] at ht'
    exact Host.Outcome.next.inj ht ▸ Host.Outcome.next.inj ht' ▸ h.raiseError .sequence
  | ignored =>
    rw [gated_of_ignored hl] at ht
    rw [gated_of_ignored (h.phase ▸ hl)] at ht'
    exact Host.Outcome.next.inj ht ▸ Host.Outcome.next.inj ht' ▸ h

theorem SameMessage.acceptIllegal (h : SameMessage s s') (ht : acceptIllegal s = .next t) (ht' : acceptIllegal s' = .next t') :
    SameMessage t t' := by
  obtain ⟨rfl, rfl⟩ | ⟨rfl, rfl⟩ := acceptIllegal_both h.phase ht ht'
  · exact h
  · exact h.raiseError .illegal

theorem SameMessage.runCommand (h : SameMessage s s') {c : Option Instr} (ht : runCommand c s = .next t)
    (ht' : runCommand c s' = .next t') : SameMessage t t' := by
  cases c with
  | some i => exact h.exec ht ht'
  | none => exact h.acceptIllegal ht ht'

theorem SameMessage.runCommands (h : SameMessage s s') {cs : List (Option Instr)} (ht : runCommands cs s = .next t)
    (ht' : runCommands cs s' = .next t') : SameMessage t t' := by
  induction cs generalizing s s' with
  | nil => exact Host.Outcome.next.inj ht ▸ Host.Outcome.next.inj ht' ▸ h
  | cons c cs ih =>
    obtain ⟨u, hu, hrest⟩ := andThen_eq_next ht
    obtain ⟨u', hu', hrest'⟩ := andThen_eq_next ht'
    exact ih (h.runCommand hu hu') hrest hrest'

theorem SameMessage.agreesWith (h : SameMessage s s') : s.agreesWith s' := by
  refine ⟨State.status_congr h.phase h.cause, ?_⟩
  by_cases hdone : s.phase = .done
  · rw [State.readResult_of_done hdone, State.readResult_of_done (h.phase ▸ hdone), h.result hdone]
  · rw [State.readResult_of_not_done hdone, State.readResult_of_not_done (h.phase ▸ hdone)]

/-! ### Two states with no message open (R31) -/

/-- The two states stand in the same one of the phases in which no message is open and no result is valid. -/
structure SameClosed (s s' : State) : Prop where
  closed : s.phase = .idle ∨ s.phase = .error
  phase : s.phase = s'.phase
  cause : s.cause = s'.cause

theorem SameClosed.agreesWith (h : SameClosed s s') : s.agreesWith s' := by
  have hdone : s.phase ≠ .done := by
    obtain hp | hp := h.closed <;> rw [hp] <;> exact nofun
  exact ⟨State.status_congr h.phase h.cause,
    (State.readResult_of_not_done hdone).trans (State.readResult_of_not_done (h.phase ▸ hdone)).symm⟩

/-- With no message open every command but INIT leaves none open: NOP keeps `IDLE`, and the others are out of sequence. -/
theorem nextPhase_closed {c : Command} {p : Phase} (hc : c ≠ .init) (hp : p = .idle ∨ p = .error) :
    nextPhase c p = .idle ∨ nextPhase c p = .error := by
  obtain rfl | rfl := hp
  · cases c with
    | nop => exact .inl rfl
    | init => exact absurd rfl hc
    | block | tail | final => exact .inr rfl
  · right
    rw [nextPhase, legality_error hc]

theorem SameClosed.exec (h : SameClosed s s') (ht : exec i s = .next t) (ht' : exec i s' = .next t') :
    SameMessage t t' ∨ SameClosed t t' := by
  by_cases hi : i.command = .init
  · obtain ⟨seed, rfl⟩ := command_eq_init_iff.mp hi
    rw [exec_init] at ht ht'
    exact .inl (Host.Outcome.next.inj ht ▸ Host.Outcome.next.inj ht' ▸ SameMessage.openMessage seed s s')
  · refine .inr ⟨?_, ?_, ?_⟩
    · rw [exec_phase ht]
      exact nextPhase_closed hi h.closed
    · rw [exec_phase ht, exec_phase ht', h.phase]
    · rw [exec_cause ht, exec_cause ht', h.phase, h.cause]

theorem SameClosed.acceptIllegal (h : SameClosed s s') (ht : acceptIllegal s = .next t) (ht' : acceptIllegal s' = .next t') :
    SameClosed t t' := by
  obtain ⟨rfl, rfl⟩ | ⟨rfl, rfl⟩ := acceptIllegal_both h.phase ht ht'
  · exact h
  · exact ⟨.inr (by simp), by simp, by simp⟩

/-- From such states a stream shows the same: up to its first INIT both stay closed, and from there on they are of one message. -/
theorem SameClosed.agree_after_acceptAll {ws : List Cmd} (h : SameClosed s s') (ht : acceptAll ws s = .next t)
    (ht' : acceptAll ws s' = .next t') : t.agreesWith t' := by
  induction ws generalizing s s' with
  | nil => exact Host.Outcome.next.inj ht ▸ Host.Outcome.next.inj ht' ▸ h.agreesWith
  | cons w ws ih =>
    obtain ⟨u, hu, hrest⟩ := andThen_eq_next ht
    obtain ⟨u', hu', hrest'⟩ := andThen_eq_next ht'
    cases hw : decode w with
    | error r =>
      rw [accept_of_reject hw] at hu hu'
      exact ih (h.acceptIllegal hu hu') hrest hrest'
    | ok i =>
      rw [accept_of_decode hw] at hu hu'
      obtain hmsg | hclosed := h.exec hu hu'
      · rw [acceptAll_eq_runCommands] at hrest hrest'
        exact (hmsg.runCommands hrest hrest').agreesWith
      · exact ih hclosed hrest hrest'

/-! ### The commands of a message (R100) -/

theorem execAll_append (is js : List Instr) (s : State) : execAll (is ++ js) s = andThen (execAll is s) (execAll js) := by
  induction is generalizing s with
  | nil => rfl
  | cons i is ih =>
    obtain ⟨u, hu⟩ := exec_next i s
    rw [List.cons_append, execAll, execAll, hu, andThen_next, andThen_next, ih]

/-- A stream of encoded commands does what the commands do. -/
theorem acceptAll_map_encode {is : List Instr} (h : ∀ i ∈ is, i.wellFormed = true) (s : State) :
    acceptAll (is.map encode) s = execAll is s := by
  induction is generalizing s with
  | nil => rfl
  | cons i is ih =>
    obtain ⟨hi, his⟩ := List.forall_mem_cons.mp h
    rw [List.map_cons, acceptAll, execAll, accept_of_decode (decodeEncodeRoundTrip i hi), funext (ih his)]

/-- FINAL after an empty TAIL is FINAL: the TAIL changed nothing but `PHASE`, which FINAL writes. -/
theorem finishMessage_absorbTail_nil (s : State) : finishMessage (absorbTail [] s) = finishMessage s := by
  apply State.ext_fields <;> simp

theorem execAll_final (h : s.phase = .absorb ∨ s.phase = .tailed) : execAll [.final] s = .next (finishMessage s) := by
  rw [execAll, exec_final_of_open h]
  rfl

theorem execAll_tail_final (h : s.phase = .absorb) (bytes : List Byte) :
    execAll [.tail bytes, .final] s = .next (finishMessage (absorbTail bytes s)) := by
  rw [execAll, exec_tail_of_absorb h, andThen_next, execAll_final (.inr (absorbTail_phase bytes s))]

theorem execAll_init_final (seed : BitVec 32) (s : State) :
    execAll [.init seed, .final] s = .next (finishMessage (openMessage seed s)) := by
  rw [execAll, exec_init, andThen_next, execAll_final (.inl (openMessage_phase seed s))]

theorem openMessage_final_readResult (seed : BitVec 32) (s : State) :
    (finishMessage (openMessage seed s)).readResult = .ok (finalize (zext64 seed) (zext64 seed) 0).1 := by
  rw [finishMessage_readResult, openMessage_h1, openMessage_h2, openMessage_len]

/-- The words of a message's blocks. -/
def messageWords (m : List Byte) : List (Word × Word) := (List.range (nblocks m)).map fun i => (blockK1 m i, blockK2 m i)

theorem messageCommands_eq (seed : BitVec 32) (m : List Byte) :
    messageCommands seed m
      = (.init seed :: (messageWords m).map fun k => .block k.1 k.2)
        ++ ((if m.length % 16 = 0 then [] else [.tail (messageTail m)]) ++ [.final]) := by
  simp [messageCommands, messageWords, Function.comp_def]

/-- The state before the FINAL of a message. -/
def absorbMessage (seed : BitVec 32) (m : List Byte) (s : State) : State :=
  absorbTail (messageTail m) (absorbBlocks (messageWords m) (openMessage seed s))

theorem messageTail_length (m : List Byte) : (messageTail m).length = m.length % 16 := by
  rw [messageTail, List.length_drop, nblocks, Config.blockBytes]
  omega

/-- The bytes after the blocks are folded in, whether a TAIL brings them or there are none. -/
theorem execAll_message_end (h : s.phase = .absorb) (m : List Byte) :
    execAll ((if m.length % 16 = 0 then [] else [.tail (messageTail m)]) ++ [.final]) s
      = .next (finishMessage (absorbTail (messageTail m) s)) := by
  by_cases hm : m.length % 16 = 0
  · have htail : messageTail m = [] := List.eq_nil_of_length_eq_zero ((messageTail_length m).trans hm)
    rw [if_pos hm, htail, finishMessage_absorbTail_nil]
    exact execAll_final (.inl h)
  · rw [if_neg hm]
    exact execAll_tail_final h (messageTail m)

/-- From any state the commands of a message complete, and no error is raised. -/
theorem execAll_messageCommands (seed : BitVec 32) (m : List Byte) (s : State) :
    execAll (messageCommands seed m) s = .next (finishMessage (absorbMessage seed m s)) := by
  have hphase : (absorbBlocks (messageWords m) (openMessage seed s)).phase = .absorb := by
    rw [absorbBlocks_phase, openMessage_phase]
  rw [messageCommands_eq, execAll_append, execAll_init_blocks, andThen_next, execAll_message_end hphase, absorbMessage]

/-! ### What a message leaves in the registers (R100) -/

@[simp] theorem absorbBlocks_cause (ks : List (Word × Word)) (s : State) : (absorbBlocks ks s).cause = s.cause := by
  induction ks generalizing s with
  | nil => rw [absorbBlocks_nil]
  | cons k ks ih => rw [absorbBlocks_cons, ih, absorbBlock_cause]

theorem absorbBlocks_lanes (ks : List (Word × Word)) (s : State) :
    ((absorbBlocks ks s).h1, (absorbBlocks ks s).h2) = ks.foldl (fun h k => blockMix h.1 h.2 k.1 k.2) (s.h1, s.h2) := by
  induction ks generalizing s with
  | nil => rw [absorbBlocks_nil, List.foldl_nil]
  | cons k ks ih => rw [absorbBlocks_cons, ih, List.foldl_cons, absorbBlock_h1, absorbBlock_h2]

/-- The lanes after the blocks of a message. -/
theorem absorbBlocks_message_lanes (seed : BitVec 32) (m : List Byte) (s : State) :
    ((absorbBlocks (messageWords m) (openMessage seed s)).h1, (absorbBlocks (messageWords m) (openMessage seed s)).h2)
      = blockPhase m seed := by
  rw [absorbBlocks_lanes, openMessage_h1, openMessage_h2, messageWords, List.foldl_map, blockPhase]

theorem absorbMessage_lanes (seed : BitVec 32) (m : List Byte) (s : State) :
    ((absorbMessage seed m s).h1, (absorbMessage seed m s).h2)
      = tailMix (blockPhase m seed).1 (blockPhase m seed).2 (messageTail m) := by
  rw [absorbMessage, absorbTail_h1, absorbTail_h2, ← absorbBlocks_message_lanes seed m s]

theorem absorbMessage_len (seed : BitVec 32) (m : List Byte) (s : State) :
    (absorbMessage seed m s).len = BitVec.ofNat 64 m.length := by
  have hwords : (messageWords m).length = m.length / 16 := by
    rw [messageWords, List.length_map, List.length_range, nblocks, Config.blockBytes]
  have hlen : 16 * (m.length / 16) + m.length % 16 = m.length := Nat.div_add_mod m.length 16
  rw [absorbMessage, absorbTail_len, absorbBlocks_len, openMessage_len, hwords, messageTail_length, zero_add,
    ← BitVec.ofNat_add, hlen]

theorem absorbMessage_cause (seed : BitVec 32) (m : List Byte) (s : State) : (absorbMessage seed m s).cause = .none := by
  rw [absorbMessage, absorbTail_cause, absorbBlocks_cause, openMessage_cause]

/-- FINAL finalizes the message's lanes and length: what it computes is the digest of the whole message. -/
theorem finalize_absorbMessage (seed : BitVec 32) (m : List Byte) (s : State) :
    finalize (absorbMessage seed m s).h1 (absorbMessage seed m s).h2 (absorbMessage seed m s).len = digestLanes m seed := by
  have hlanes := absorbMessage_lanes seed m s
  rw [digestLanes, ← hlanes, absorbMessage_len]

/-! ### `HASH` (R64) -/

/-- A block's two words, packed, are its sixteen bytes. -/
theorem lanes_blockData_of_message {m : List Byte} {i : Nat} (hi : i < nblocks m) :
    lanes (blockData (blockK1 m i) (blockK2 m i)) 16 = (m.drop (16 * i)).take 16 := by
  have hlen : ((m.drop (16 * i)).take 16).length = 16 := by
    rw [nblocks, Config.blockBytes] at hi
    rw [List.length_take, List.length_drop]
    omega
  have hk1 : blockK1 m i = k1Of (packBytes ((m.drop (16 * i)).take 16)) := by
    rw [k1Of_packBytes, List.take_take, blockK1]
    rfl
  have hk2 : blockK2 m i = k2Of (packBytes ((m.drop (16 * i)).take 16)) := by
    rw [k2Of_packBytes, List.drop_take, List.take_take, List.drop_drop, blockK2]
    rfl
  have hlanes := lanes_packBytes _ hlen.le
  rwa [hlen, ← blockData_fields (packBytes ((m.drop (16 * i)).take 16)), ← hk1, ← hk2] at hlanes

/-- `HASH` stands for the lines of the message's commands. -/
theorem expandHash_eq (seed : BitVec 32) (m : List Byte) :
    Asm.expandHash seed.toNat m = (messageCommands seed m).map Asm.lineOf := by
  have hblocks : ((List.range (nblocks m)).map fun i => Asm.Line.block ((m.drop (16 * i)).take 16))
      = (List.range (nblocks m)).map (Asm.lineOf ∘ fun i => .block (blockK1 m i) (blockK2 m i)) :=
    List.map_congr_left fun i hi => by
      rw [Function.comp_apply, Asm.lineOf, lanes_blockData_of_message (List.mem_range.mp hi)]
  have htail : (if m.length % 16 = 0 then [] else [Asm.Line.tail (messageTail m)])
      = (if m.length % 16 = 0 then [] else [Instr.tail (messageTail m)]).map Asm.lineOf := by
    split <;> rfl
  rw [messageCommands, List.map_append, List.map_append, List.map_cons, List.map_map, ← hblocks, ← htail]
  rfl

theorem messageCommands_wellFormed (seed : BitVec 32) (m : List Byte) :
    ∀ i ∈ messageCommands seed m, i.wellFormed = true := by
  have htail : (Instr.tail (messageTail m)).wellFormed = true := by
    rw [wellFormed_tail_iff, messageTail_length]
    omega
  intro i hi
  cases i with
  | nop | init | block | final => rfl
  | tail bytes =>
    have hbytes : bytes = messageTail m := by
      simp only [messageCommands] at hi
      split at hi <;> simp_all
    exact hbytes ▸ htail

theorem assemble_hash (seed : BitVec 32) (m : List Byte) :
    Asm.assemble (.hash seed.toNat m) = .ok ((messageCommands seed m).map encode) := by
  rw [Asm.assemble, Asm.Item.lines, expandHash_eq, Asm.assembleLines_map_lineOf (messageCommands_wellFormed seed m)]

end

/-- Settles O45: the words of `HASH` are the message's commands, and FINAL finalizes what they absorbed. -/
theorem hashComputesHash128 : Obligations.HashComputesHash128 := by
  intro seed m s _
  refine ⟨_, finishMessage (absorbMessage seed m s), assemble_hash seed m, ?_, finishMessage_phase _, ?_, ?_, ?_, ?_⟩
  · rw [acceptAll_map_encode (messageCommands_wellFormed seed m), execAll_messageCommands]
  · rw [finishMessage_cause, absorbMessage_cause]
  · rw [finishMessage_readResult, finalize_absorbMessage, hash128]
  · rw [State.digest, finishMessage_h1, finishMessage_h2, finalize_absorbMessage]
  · rw [finishMessage_len, absorbMessage_len]

/-- Settles O46: a NOP answers the state it is given, and FINAL after an empty TAIL is FINAL. -/
theorem nopsAndEmptyTailChangeNothing : Obligations.NopsAndEmptyTailChangeNothing := by
  refine ⟨fun is s => ?_, fun s h => ?_⟩
  · have hfilter : (is.filter fun i => i != .nop).map some = (is.map some).filter fun c => c != some .nop := by
      rw [List.filter_map]
      rfl
    rw [execAll_eq_runCommands, execAll_eq_runCommands, hfilter, runCommands_filter_nop]
  · rw [execAll_tail_final h, finishMessage_absorbTail_nil, execAll_final (.inl h)]

/-- Settles O47: FINAL finalizes the seed with length 0, and the two results are computed. -/
theorem emptyMessage : Obligations.EmptyMessage := by
  intro s
  have hseed (seed : BitVec 32) : ∃ t, execAll [.init seed, .final] s = .next t
      ∧ t.readResult = .ok (finalize (zext64 seed) (zext64 seed) 0).1 :=
    ⟨_, execAll_init_final seed s, openMessage_final_readResult seed s⟩
  have hzero : (finalize (zext64 (0 : BitVec 32)) (zext64 (0 : BitVec 32)) 0).1 = 0 := by decide
  have hone : (finalize (zext64 (1 : BitVec 32)) (zext64 (1 : BitVec 32)) 0).1 = 0x4610abe56eff5cb5 := by decide
  exact ⟨hseed, hzero ▸ hseed 0, hone ▸ hseed 1⟩

/-- Settles O48: INIT makes the two states agree, and the same commands keep them so. -/
theorem resultDependsOnMessageOnly : Obligations.ResultDependsOnMessageOnly := by
  intro es es' s s' t t' seed rest hes hes' hcs hcs' ht ht'
  rw [runEdges_eq_runCommands hes, hcs, runCommands, runCommand, exec_init, andThen_next] at ht
  rw [runEdges_eq_runCommands hes', hcs', runCommands, runCommand, exec_init, andThen_next] at ht'
  have h : SameMessage t t' := (SameMessage.openMessage seed s s').runCommands ht ht'
  exact ⟨h.agreesWith, h.h1, h.h2, h.len⟩

/-- Settles O49: until an INIT writes them, no command reads the lanes, `LEN` or `RESULT`. -/
theorem resetValuesAreNeverObserved : Obligations.ResetValuesAreNeverObserved :=
  fun _ _ _ _ _ hclosed hphase hcause ht ht' => SameClosed.agree_after_acceptAll ⟨hclosed, hphase, hcause⟩ ht ht'

end Sys2Proof.Machine
